-- ==== Sys2Proof/Word.lean ====
section
/-! DEFINITION. The word types of bitop CORE (00_scope.md R12). -/

namespace Sys2Proof

/-- A sequence byte or a byte of host memory (R12). -/
abbrev Byte := BitVec 8

/-- A command word `CMD` (R12, R80). -/
abbrev Word := BitVec 32

/-- An operand `OPA` or a result `RES` (R12). -/
abbrev Dword := BitVec 64

/-- A slot number, the 2-bit fields `SD` and `SS` (R82). -/
abbrev SlotNum := BitVec 2

/-- The unsigned immediate `IMM16` (R85). -/
abbrev Imm := BitVec 16

end Sys2Proof
end

