-- ==== Sys2Proof/Config.lean ====
section
/-! DEFINITION. What an implementation fixes when the block is built (00_scope.md R11), and the one free value of the
model: which of the values a raced byte held is the one captured (20_memory.md R73). -/

namespace Sys2Proof

/-- `HOST_ORDER` (R11, R65): the byte order in which the host lays out a multi-byte value. -/
inductive ByteOrder where
  | little
  | big
  deriving DecidableEq, Repr

/-- `NAN_SIGN_POLICY` (R11, R188): whether a NaN result carries the input's sign. -/
inductive NanSignPolicy where
  | apply
  | drop
  deriving DecidableEq, Repr

/-- The build parameters of R11. DESIGN CHOICE (log 3): they stand in `State` as data no step changes, so that a statement
over all states holds for every legal parameter value. -/
structure Config where
  /-- `NSEQ`, the number of sequence slots. -/
  nseq : Nat
  /-- `MAXB`, the capacity of one slot in bytes. -/
  maxb : Nat
  /-- `ADDR_W`, the width of a host-memory byte address. -/
  addrW : Nat
  /-- `HOST_ORDER`. -/
  hostOrder : ByteOrder
  /-- `NAN_SIGN_POLICY`. -/
  nanSign : NanSignPolicy
  /-- `NAN32_FRAC`, the fraction of the canonical binary32 NaN. -/
  nan32Frac : BitVec 23
  /-- `NAN64_FRAC`, the fraction of the canonical binary64 NaN. -/
  nan64Frac : BitVec 52
  deriving DecidableEq, Repr

/-- The values R11 gives the parameters. -/
def Config.default : Config where
  nseq := 4
  maxb := 8191
  addrW := 64
  hostOrder := .little
  nanSign := .apply
  nan32Frac := 0x400000#23
  nan64Frac := 0x8000000000000#52

/-- The legal ranges of R11. -/
abbrev Config.Legal (c : Config) : Prop :=
  1 ≤ c.nseq ∧ c.nseq ≤ 4 ∧ 8 ≤ c.maxb ∧ c.maxb ≤ 8191 ∧ 1 ≤ c.addrW ∧ c.addrW ≤ 64 ∧
    c.nan32Frac ≠ 0 ∧ c.nan64Frac ≠ 0

/-- FREE VALUE (R73, log 10): the choice among the values a byte held while it was read, for the n-th byte ever read.
It has no body, so nothing can be proved of it. -/
opaque Config.raceDraw : Nat → Nat

end Sys2Proof
end

