-- ==== Sys2Proof/Syntax.lean ====
section
/-! DEFINITION. The commands of bitop CORE: one constructor per row of the opcode map (30_encoding.md R87). The operand
`OPA` is no part of the command word (R86): it stands in `State.opa`. -/

namespace Sys2Proof

/-- The width `W` of CAPV, of DECINT (R84) and of a value the host stores (R65). -/
inductive Width where
  | w8
  | w16
  | w32
  | w64
  deriving DecidableEq, Repr

/-- The 19 commands. `sd` is the destination slot and `ss` the source slot (R82). -/
inductive Instr where
  /-- `capture(pointer, bitLength)`, R110. -/
  | capm (sd : SlotNum) (bitLength : Imm)
  /-- `captureValue` of an 8-bit value, R118. -/
  | capv8 (sd : SlotNum)
  /-- `captureValue` of a 16-bit value, R119. -/
  | capv16 (sd : SlotNum)
  /-- `captureValue` of a 32-bit value, R120. -/
  | capv32 (sd : SlotNum)
  /-- `captureValue` of a 64-bit value, R121. -/
  | capv64 (sd : SlotNum)
  /-- Copy/assign, R123. -/
  | copy (sd ss : SlotNum)
  /-- `bitLength()`, R127. -/
  | bitlen (ss : SlotNum)
  /-- `getBit(pos)`, R130. -/
  | getbit (ss : SlotNum) (pos : Imm)
  /-- Raw byte access, R135. -/
  | rdbyte (ss : SlotNum) (index : Imm)
  /-- `decodeInt<uint8>`, R163. -/
  | decu8 (ss : SlotNum)
  /-- `decodeInt<uint16>`, R164. -/
  | decu16 (ss : SlotNum)
  /-- `decodeInt<uint32>`, R165. -/
  | decu32 (ss : SlotNum)
  /-- `decodeInt<uint64>`, R166. -/
  | decu64 (ss : SlotNum)
  /-- `decodeInt<int8>`, R167. -/
  | decs8 (ss : SlotNum)
  /-- `decodeInt<int16>`, R168. -/
  | decs16 (ss : SlotNum)
  /-- `decodeInt<int32>`, R169. -/
  | decs32 (ss : SlotNum)
  /-- `decodeInt<int64>`, R170. -/
  | decs64 (ss : SlotNum)
  /-- `decodeFloat32`, R190. -/
  | decf32 (ss : SlotNum)
  /-- `decodeFloat64`, R200. -/
  | decf64 (ss : SlotNum)
  deriving DecidableEq, Repr

end Sys2Proof
end

