-- ==== Sys2Proof/WellFormed.lean ====
section
/-! DEFINITION. Which commands a block built with given parameters has: every slot field a command uses is below `NSEQ`
(30_encoding.md R82, R88 step 3). Every other field is legal at every value its type admits. -/

namespace Sys2Proof

/-- The slot a command writes, if it uses `SD` (R87). -/
def Instr.dest? : Instr → Option SlotNum
  | .capm sd _ => some sd
  | .capv8 sd => some sd
  | .capv16 sd => some sd
  | .capv32 sd => some sd
  | .capv64 sd => some sd
  | .copy sd _ => some sd
  | .bitlen _ => none
  | .getbit _ _ => none
  | .rdbyte _ _ => none
  | .decu8 _ => none
  | .decu16 _ => none
  | .decu32 _ => none
  | .decu64 _ => none
  | .decs8 _ => none
  | .decs16 _ => none
  | .decs32 _ => none
  | .decs64 _ => none
  | .decf32 _ => none
  | .decf64 _ => none

/-- The slot a command reads, if it uses `SS` (R87). -/
def Instr.source? : Instr → Option SlotNum
  | .capm _ _ => none
  | .capv8 _ => none
  | .capv16 _ => none
  | .capv32 _ => none
  | .capv64 _ => none
  | .copy _ ss => some ss
  | .bitlen ss => some ss
  | .getbit ss _ => some ss
  | .rdbyte ss _ => some ss
  | .decu8 ss => some ss
  | .decu16 ss => some ss
  | .decu32 ss => some ss
  | .decu64 ss => some ss
  | .decs8 ss => some ss
  | .decs16 ss => some ss
  | .decs32 ss => some ss
  | .decs64 ss => some ss
  | .decf32 ss => some ss
  | .decf64 ss => some ss

/-- A slot field, where the command uses it, names one of the `NSEQ` slots (R82). -/
def slotExists (c : Config) : Option SlotNum → Bool
  | none => true
  | some k => decide (k.toNat < c.nseq)

/-- The command exists on a block with these parameters (R88 step 3). -/
def Instr.wf (c : Config) (i : Instr) : Bool :=
  slotExists c i.dest? && slotExists c i.source?

end Sys2Proof
end

