-- ==== Sys2Proof/Decode.lean ====
section
/-! DEFINITION. From a command word to a command and back (30_encoding.md R80 to R91), and the opcode map of R87 as the
spec prints it. -/

namespace Sys2Proof

/-- The five fields of the one command format (R80). -/
structure CmdFields where
  opc : BitVec 8
  sd : BitVec 2
  ss : BitVec 2
  fn : BitVec 4
  imm : BitVec 16
  deriving DecidableEq, Repr

/-- R80: `OPC = CMD[7:0]`, `SD = CMD[9:8]`, `SS = CMD[11:10]`, `FN = CMD[15:12]`, `IMM16 = CMD[31:16]`. -/
def CmdFields.ofWord (w : Word) : CmdFields where
  opc := w.extractLsb' 0 8
  sd := w.extractLsb' 8 2
  ss := w.extractLsb' 10 2
  fn := w.extractLsb' 12 4
  imm := w.extractLsb' 16 16

/-- The word with these fields (R80). -/
def CmdFields.word (f : CmdFields) : Word :=
  f.imm ++ f.fn ++ f.ss ++ f.sd ++ f.opc

/-- Why a word is `Illegal` (R89). -/
inductive Illegal where
  /-- `OPC` is not a value of R81. -/
  | unassignedOpcode
  /-- A field that a row of R87 fixes has another value. -/
  | reservedField
  /-- A slot field the command uses is not below `NSEQ`. -/
  | absentSlot
  deriving DecidableEq, Repr

/-- What decoding answers (R88): one of the 19 commands, or `Illegal` with the reason. -/
inductive Decoded where
  | instr (i : Instr)
  | illegal (why : Illegal)
  deriving DecidableEq, Repr

/-- A row whose fixed fields have to hold (R87, R89). -/
def requireFixed (fixed : Bool) (i : Instr) : Decoded :=
  if fixed then .instr i else .illegal .reservedField

/-- The CAPV group: `FN[1:0]` is the width code and `FN[3:2]` must be 0 (R83, R84). -/
def decodeCapv (f : CmdFields) : Decoded :=
  if f.ss = 0 ∧ f.imm = 0 then
    match f.fn.toNat with
    | 0 => .instr (.capv8 f.sd)
    | 1 => .instr (.capv16 f.sd)
    | 2 => .instr (.capv32 f.sd)
    | 3 => .instr (.capv64 f.sd)
    | _ => .illegal .reservedField
  else .illegal .reservedField

/-- The DECINT group: `FN[1:0]` is the width code, `FN[2]` the signedness and `FN[3]` must be 0 (R83, R84). -/
def decodeDecint (f : CmdFields) : Decoded :=
  if f.sd = 0 ∧ f.imm = 0 then
    match f.fn.toNat with
    | 0 => .instr (.decu8 f.ss)
    | 1 => .instr (.decu16 f.ss)
    | 2 => .instr (.decu32 f.ss)
    | 3 => .instr (.decu64 f.ss)
    | 4 => .instr (.decs8 f.ss)
    | 5 => .instr (.decs16 f.ss)
    | 6 => .instr (.decs32 f.ss)
    | 7 => .instr (.decs64 f.ss)
    | _ => .illegal .reservedField
  else .illegal .reservedField

/-- R88 steps 1 and 2, by the fields of R81 to R85: the row of the opcode map the word belongs to, if any. -/
def decodeFields (f : CmdFields) : Decoded :=
  match f.opc.toNat with
  | 0x01 => requireFixed (f.ss == 0 && f.fn == 0) (.capm f.sd f.imm)
  | 0x02 => decodeCapv f
  | 0x03 => requireFixed (f.fn == 0 && f.imm == 0) (.copy f.sd f.ss)
  | 0x04 => requireFixed (f.sd == 0 && f.fn == 0 && f.imm == 0) (.bitlen f.ss)
  | 0x05 => requireFixed (f.sd == 0 && f.fn == 0) (.getbit f.ss f.imm)
  | 0x06 => requireFixed (f.sd == 0 && f.fn == 0) (.rdbyte f.ss f.imm)
  | 0x10 => decodeDecint f
  | 0x20 => requireFixed (f.sd == 0 && f.fn == 0 && f.imm == 0) (.decf32 f.ss)
  | 0x21 => requireFixed (f.sd == 0 && f.fn == 0 && f.imm == 0) (.decf64 f.ss)
  | _ => .illegal .unassignedOpcode

/-- R88 step 3: a used slot field that is not below `NSEQ` makes the word illegal. -/
def checkSlots (c : Config) : Decoded → Decoded
  | .illegal why => .illegal why
  | .instr i => if i.wf c then .instr i else .illegal .absentSlot

/-- Decoding (R88): total on 32-bit words. -/
def decode (c : Config) (w : Word) : Decoded :=
  checkSlots c (decodeFields (CmdFields.ofWord w))

/-- The fields of a command's word, from the rows of R87. -/
def encodeFields : Instr → CmdFields
  | .capm sd bitLength => ⟨0x01, sd, 0, 0, bitLength⟩
  | .capv8 sd => ⟨0x02, sd, 0, 0b0000, 0⟩
  | .capv16 sd => ⟨0x02, sd, 0, 0b0001, 0⟩
  | .capv32 sd => ⟨0x02, sd, 0, 0b0010, 0⟩
  | .capv64 sd => ⟨0x02, sd, 0, 0b0011, 0⟩
  | .copy sd ss => ⟨0x03, sd, ss, 0, 0⟩
  | .bitlen ss => ⟨0x04, 0, ss, 0, 0⟩
  | .getbit ss pos => ⟨0x05, 0, ss, 0, pos⟩
  | .rdbyte ss index => ⟨0x06, 0, ss, 0, index⟩
  | .decu8 ss => ⟨0x10, 0, ss, 0b0000, 0⟩
  | .decu16 ss => ⟨0x10, 0, ss, 0b0001, 0⟩
  | .decu32 ss => ⟨0x10, 0, ss, 0b0010, 0⟩
  | .decu64 ss => ⟨0x10, 0, ss, 0b0011, 0⟩
  | .decs8 ss => ⟨0x10, 0, ss, 0b0100, 0⟩
  | .decs16 ss => ⟨0x10, 0, ss, 0b0101, 0⟩
  | .decs32 ss => ⟨0x10, 0, ss, 0b0110, 0⟩
  | .decs64 ss => ⟨0x10, 0, ss, 0b0111, 0⟩
  | .decf32 ss => ⟨0x20, 0, ss, 0, 0⟩
  | .decf64 ss => ⟨0x21, 0, ss, 0, 0⟩

/-- The command word of a command (R80, R87). -/
def encode (i : Instr) : Word := (encodeFields i).word

/-- The mnemonic of a command, as R87 prints it. -/
def Instr.mnemonic : Instr → String
  | .capm _ _ => "CAPM"
  | .capv8 _ => "CAPV8"
  | .capv16 _ => "CAPV16"
  | .capv32 _ => "CAPV32"
  | .capv64 _ => "CAPV64"
  | .copy _ _ => "COPY"
  | .bitlen _ => "BITLEN"
  | .getbit _ _ => "GETBIT"
  | .rdbyte _ _ => "RDBYTE"
  | .decu8 _ => "DECU8"
  | .decu16 _ => "DECU16"
  | .decu32 _ => "DECU32"
  | .decu64 _ => "DECU64"
  | .decs8 _ => "DECS8"
  | .decs16 _ => "DECS16"
  | .decs32 _ => "DECS32"
  | .decs64 _ => "DECS64"
  | .decf32 _ => "DECF32"
  | .decf64 _ => "DECF64"

/-- A row of the opcode map of R87: `mask` has a 1 in every fixed bit and `value` (the table's `match`) the fixed bits. -/
structure OpcodeRow where
  mnemonic : String
  value : Word
  mask : Word
  deriving DecidableEq, Repr

/-- The word has the row's fixed bits (R88 step 1). -/
def OpcodeRow.admits (r : OpcodeRow) (w : Word) : Bool := w &&& r.mask == r.value

/-- The opcode map as R87 prints it. The decoder does not read it: a statement says that the two agree. -/
def opcodeMap : List OpcodeRow :=
  [⟨"CAPM", 0x00000001, 0x0000FCFF⟩,
   ⟨"CAPV8", 0x00000002, 0xFFFFFCFF⟩,
   ⟨"CAPV16", 0x00001002, 0xFFFFFCFF⟩,
   ⟨"CAPV32", 0x00002002, 0xFFFFFCFF⟩,
   ⟨"CAPV64", 0x00003002, 0xFFFFFCFF⟩,
   ⟨"COPY", 0x00000003, 0xFFFFF0FF⟩,
   ⟨"BITLEN", 0x00000004, 0xFFFFF3FF⟩,
   ⟨"GETBIT", 0x00000005, 0x0000F3FF⟩,
   ⟨"RDBYTE", 0x00000006, 0x0000F3FF⟩] ++
  [⟨"DECU8", 0x00000010, 0xFFFFF3FF⟩,
   ⟨"DECU16", 0x00001010, 0xFFFFF3FF⟩,
   ⟨"DECU32", 0x00002010, 0xFFFFF3FF⟩,
   ⟨"DECU64", 0x00003010, 0xFFFFF3FF⟩,
   ⟨"DECS8", 0x00004010, 0xFFFFF3FF⟩,
   ⟨"DECS16", 0x00005010, 0xFFFFF3FF⟩,
   ⟨"DECS32", 0x00006010, 0xFFFFF3FF⟩,
   ⟨"DECS64", 0x00007010, 0xFFFFF3FF⟩,
   ⟨"DECF32", 0x00000020, 0xFFFFF3FF⟩,
   ⟨"DECF64", 0x00000021, 0xFFFFF3FF⟩]

/-- The command that the decoder reads from the word with bits `w`, its low `nbits` bits; a block with the parameters of
R11 (log 23). A command arrives on `CMD` as one 32-bit number, so no byte order enters (R76, R91). -/
def decodeTableWord (nbits w : Nat) : Option Instr :=
  match decode Config.default (BitVec.ofNat 32 (w % 2 ^ nbits)) with
  | .instr i => some i
  | .illegal _ => none

end Sys2Proof
end

