-- ==== Sys2Proof/Machine/State.lean ====
section
/-! DEFINITION. Everything the spec gives the machine, as plain data (10_state.md R30, R45; 20_memory.md R60), the state
after reset (R44, R250), and the reasons a step can stop. -/

namespace Sys2Proof.Machine

/-- A BitSequence (R24, R31): its bytes, index 0 least significant; `len` of R30 is the list's length. Bytes at index
`≥ len` are left out, as R36 allows (log 13). -/
abbrev BitSeq := List Byte

/-- Host memory (R60): the admitted addresses, strictly rising, each with its byte. An address not listed is not admitted
(R64, log 5). -/
abbrev Memory := List Host.Cell

/-- Addresses whose reads have side effects (R68, log 12). -/
structure AddrRange where
  base : Nat
  size : Nat
  deriving DecidableEq, Repr

/-- One action of the host (R45, R47, R72, R250, R260; log 1). -/
inductive HostEvent where
  /-- The host presents a command; `during` are the writes other agents make to host memory between its acceptance and its
  response, oldest first (R73). -/
  | command (cmd : Word) (opa : Dword) (during : List Host.Cell)
  /-- The host stores a value of width `w` at `addr`, laid out in its own byte order (R65, R72). -/
  | store (addr : Nat) (w : Width) (value : Dword)
  /-- The host drives the reset input `RST` (R250). -/
  | rst (level : Bool)
  deriving DecidableEq, Repr

/-- The machine: the block's registers (R30), its build parameters (R11), the signals on its boundary (R45), and the
host's memory and remaining actions (R60, R259). `reads` and `draws` are the model's own (logs 14, 15). -/
structure State where
  /-- The build parameters (R11, R42). -/
  cfg : Config
  /-- The sequence slots `S` (R31). -/
  slots : Vector BitSeq 4
  /-- The result register `RES` (R37). -/
  res : Dword
  /-- The status register `ERR` (R38). -/
  err : BitVec 3
  /-- The float class register `CLS` (R39). -/
  cls : BitVec 3
  /-- The level of the reset input `RST` (R250). -/
  rst : Bool
  /-- The command word `CMD` taken last (R45). -/
  cmd : Word
  /-- The operand `OPA` taken last (R45). -/
  opa : Dword
  /-- Host memory (R60). -/
  mem : Memory
  /-- The host platform's regions with read side effects (R68). -/
  devices : List AddrRange
  /-- Other agents' writes while the current command runs (R73). -/
  during : List Host.Cell
  /-- The addresses the last command sent to the memory port, in order (R46, R67). -/
  reads : List Nat
  /-- How many bytes were ever read: the argument of the free value of R73. -/
  draws : Nat
  /-- What the host does next, in order (R259). -/
  host : List HostEvent
  deriving DecidableEq, Repr

/-- Why a step does not exist. -/
inductive Fault where
  /-- Raised by CAPM (R64, R114, R226): a read of host memory is not admitted, so the block is stuck, writes nothing and
  never responds. Safe: the machine stops where a chip might go on with garbage. -/
  | readNotAdmitted
  deriving DecidableEq, Repr

/-- Why the model gives no step. -/
inductive Refusal where
  /-- Raised by an arm of `exec` whose instruction has no meaning yet; no arm raises it. Safe: the machine stops. -/
  | notModelled (mnemonic : String)
  /-- Raised by CAPM when a read falls in a region whose reads have side effects (R68; 93_implementation_defined.md I5:
  `refuse`, outside the model). Safe: the machine stops. -/
  | sideEffectRead
  deriving DecidableEq, Repr

/-- What a meaning and a step answer. -/
abbrev Result := Host.Outcome State Fault Refusal

/-- The outputs the requester gets back (R45, R47, R260). -/
structure Response where
  err : BitVec 3
  res : Dword
  cls : BitVec 3
  deriving DecidableEq, Repr

/-- The state right after reset (R44, R250), at the parameter values of R11, with `RST` released. The host's side is
empty: no memory admitted, no device region and no action to come (logs 1, 5, 12, 16). -/
def State.reset : State where
  cfg := Config.default
  slots := Vector.replicate 4 []
  res := 0
  err := 0
  cls := 0
  rst := false
  cmd := 0
  opa := 0
  mem := []
  devices := []
  during := []
  reads := []
  draws := 0
  host := []

end Sys2Proof.Machine
end

