-- ==== Sys2Proof/Machine/Flags.lean ====
section
/-! DEFINITION. The two status registers: the codes of `ERR` (60_exceptions.md R221) and of `CLS` (10_state.md R39), and the
classification of a floating-point pattern (42_float_decode.md R180, R182). -/

namespace Sys2Proof.Machine

/-- The error kinds a command can report (R221). -/
inductive ErrorKind where
  | invalidLength
  | outOfRange
  | widthOverflow
  | wrongWidth
  | capacityExceeded
  | illegalOp
  deriving DecidableEq, Repr

/-- `ERR` after a command that succeeded (R221). -/
def okCode : BitVec 3 := 0

/-- `ERR` after a command that failed (R221). -/
def errorCode : ErrorKind → BitVec 3
  | .invalidLength => 1
  | .outOfRange => 2
  | .widthOverflow => 3
  | .wrongWidth => 4
  | .capacityExceeded => 5
  | .illegalOp => 6

/-- The class of a floating-point pattern (R25, R182). -/
inductive FloatClass where
  | zero
  | subnormal
  | normal
  | infinity
  | nan
  deriving DecidableEq, Repr

/-- `CLS` after a float decode that succeeded (R39, R182); 0 is NONE. -/
def classCode : FloatClass → BitVec 3
  | .zero => 1
  | .subnormal => 2
  | .normal => 3
  | .infinity => 4
  | .nan => 5

/-- The two formats (R2, R180). -/
inductive FloatFormat where
  | binary32
  | binary64
  deriving DecidableEq, Repr

/-- The width `N` (R180). -/
def formatWidth : FloatFormat → Nat
  | .binary32 => 32
  | .binary64 => 64

/-- The mantissa width `p` (R180). -/
def mantissaWidth : FloatFormat → Nat
  | .binary32 => 23
  | .binary64 => 52

/-- The bias (R180). -/
def exponentBias : FloatFormat → Nat
  | .binary32 => 127
  | .binary64 => 1023

/-- The fixed exponent of a subnormal (R180). -/
def subnormalExponent : FloatFormat → Int
  | .binary32 => -126
  | .binary64 => -1022

/-- The all-ones exponent `Emax` (R180). -/
def exponentMax : FloatFormat → Nat
  | .binary32 => 255
  | .binary64 => 2047

/-- Classification from the biased exponent `E` and the mantissa field `M` alone (R182). -/
def classify (F : FloatFormat) (E M : Nat) : FloatClass :=
  if E = 0 then
    if M = 0 then .zero else .subnormal
  else if E < exponentMax F then .normal
  else if M = 0 then .infinity else .nan

end Sys2Proof.Machine
end

