-- ==== Sys2Proof/Machine/Operands.lean ====
section
/-! DEFINITION. The operand forms: widths (30_encoding.md R84), bit access to a sequence (00_scope.md R19 to R22), the bytes
of a captured or stored value (20_memory.md R61 to R65), and the extension to `RES` (41_integer_decode.md R155). -/

namespace Sys2Proof.Machine

/-- `W` in bits (R84). -/
def widthBits : Width → Nat
  | .w8 => 8
  | .w16 => 16
  | .w32 => 32
  | .w64 => 64

/-- `W / 8`. -/
def widthBytes : Width → Nat
  | .w8 => 1
  | .w16 => 2
  | .w32 => 4
  | .w64 => 8

/-- The bit length of a sequence: its byte count times 8 (R19, R32). -/
def bitLength (q : BitSeq) : Nat := q.length * 8

/-- Bit `pos` of a sequence: `(bytes[pos / 8] >> (pos % 8)) & 1` (R13, R20). Its callers check `pos < bitLength q` first
(R131); the 0 past the end is never read. -/
def getBit (q : BitSeq) (pos : Nat) : Byte :=
  (q.getD (pos / 8) 0 >>> (pos % 8)) &&& 1#8

/-- The `n` bits from `lo` upward as an unsigned integer: the sum of R21. -/
def bitSum (q : BitSeq) (lo : Nat) : Nat → Nat
  | 0 => 0
  | n + 1 => bitSum q lo n + (getBit q (lo + n)).toNat * 2 ^ n

/-- `readUnsignedRange(seq, lo, hi)` (R21). -/
def readUnsignedRange (q : BitSeq) (lo hi : Nat) : Nat := bitSum q lo (hi + 1 - lo)

/-- `pattern(seq)`: the unsigned integer whose base-256 digits are the bytes, byte 0 least significant (R22, R61). -/
def pattern : BitSeq → Nat
  | [] => 0
  | b :: bs => b.toNat + 256 * pattern bs

/-- The bytes of a value of width `w` in significance order: byte `i` is `v[8i+7:8i]` (R63). -/
def valueBytes (w : Width) (v : Dword) : BitSeq :=
  (List.range (widthBytes w)).map fun i => v.extractLsb' (8 * i) 8

/-- The bytes of a value of width `w` as the host lays them out at rising addresses (R65). -/
def layoutBytes (o : ByteOrder) (w : Width) (v : Dword) : List Byte :=
  match o with
  | .little => valueBytes w v
  | .big => (valueBytes w v).reverse

/-- The accumulation of R150: bytes from the highest index down, `acc * 256 + byte` modulo `2^W`. -/
def accumulate (W : Nat) (q : BitSeq) : BitVec W :=
  q.foldr (fun b acc => acc * 256 + b.setWidth W) 0

/-- The W-bit pattern extended to the 64-bit `RES`: by its sign for DECS, by zeros for DECU (R155). -/
def extendResult {W : Nat} (signed : Bool) (r : BitVec W) : Dword :=
  if signed then r.signExtend 64 else r.setWidth 64

end Sys2Proof.Machine
end

