-- ==== Sys2Proof/Machine/Ops.lean ====
section
/-! DEFINITION. The named operations on the machine: register and slot writes (10_state.md R34 to R39), `raise` (00_scope.md
R18), the memory port (20_memory.md R64, R67, R73), the host's stores and `RST` (R65, R72; 70_reset_and_hazards.md R250,
R251), and the taking and completing of a command (R256). The block has no exception entry: an error is a code in `ERR`
and nothing else (60_exceptions.md R220, R228, R230), so `raise` is all there is of it. -/

namespace Sys2Proof.Machine

/-! ### Registers and slots -/

/-- `S[k]` (R17). -/
def readSlot (s : State) (k : SlotNum) : BitSeq := s.slots[k.toNat]'k.isLt

/-- `S[k] <- seq`: the whole slot at once (R17, R34). -/
def writeSlot (k : SlotNum) (q : BitSeq) (s : State) : State :=
  { s with slots := s.slots.set k.toNat q k.isLt }

/-- `RES <- v` (R17). -/
def writeRes (v : Dword) (s : State) : State := { s with res := v }

/-- `ERR <- e` (R17, R38). -/
def writeErr (e : BitVec 3) (s : State) : State := { s with err := e }

/-- `CLS <- code(c)` (R17, R39). -/
def writeCls (c : FloatClass) (s : State) : State := { s with cls := classCode c }

/-- `ERR <- 0`: the command succeeded (R221). -/
def succeed (s : State) : State := writeErr okCode s

/-- `raise E`: `ERR` gets the code of `E` and nothing else changes (R18, R220, R225). -/
def raise (e : ErrorKind) (s : State) : State := writeErr (errorCode e) s

/-- The outputs after a command (R45, R47). -/
def response (s : State) : Response := ⟨s.err, s.res, s.cls⟩

/-! ### Host memory -/

/-- The byte listed at an address (R64, log 5). -/
def memLookup (m : Memory) (a : Nat) : Option Byte :=
  match m with
  | [] => none
  | c :: cs => if c.1 = a then some c.2 else memLookup cs a

/-- A byte written to an admitted address. A write to an address that is not admitted changes nothing the block can read
(R64, log 5). -/
def memWrite (a : Nat) (b : Byte) (m : Memory) : Memory :=
  m.map fun c => if c.1 = a then (c.1, b) else c

/-- Bytes written at rising addresses (R65). -/
def memWriteBytes (m : Memory) (a : Nat) : List Byte → Memory
  | [] => m
  | b :: bs => memWriteBytes (memWrite a b m) (a + 1) bs

/-- Single-byte writes made one after another (R73). -/
def memWriteCells (m : Memory) : List Host.Cell → Memory
  | [] => m
  | c :: cs => memWriteCells (memWrite c.1 c.2 m) cs

/-- The bytes other agents write at `a` while the command runs, oldest first (R73). -/
def racedBytes (during : List Host.Cell) (a : Nat) : List Byte :=
  (during.filter fun c => c.1 == a).map Prod.snd

/-- The captured byte when `b` was in memory at acceptance and `later` were written before the response: with no such
write `b`; otherwise a draw among all the values the byte held, chosen by the free value (R64, R73, log 10). -/
def drawByte (n : Nat) (b : Byte) (later : List Byte) : Byte :=
  match later with
  | [] => b
  | _ :: _ => (b :: later).getD (Config.raceDraw n % (later.length + 1)) b

/-- The address lies in a region whose reads have side effects (R68). -/
def isDevice (devices : List AddrRange) (a : Nat) : Bool :=
  devices.any fun d => decide (d.base ≤ a ∧ a < d.base + d.size)

/-- What the memory port answers to a read. -/
inductive ReadAnswer where
  | byte (b : Byte)
  | notAdmitted
  | sideEffects
  deriving DecidableEq, Repr

/-- `MemRead(a, 1)` (R64): an address at or above `2^ADDR_W` is never admitted; the spec gives no step for a region with
read side effects (R68); any other listed address answers its byte, or a draw if it is raced (R73). -/
def memRead (s : State) (a : Nat) : ReadAnswer :=
  if a < 2 ^ s.cfg.addrW then
    if isDevice s.devices a then .sideEffects
    else
      match memLookup s.mem a with
      | none => .notAdmitted
      | some b => .byte (drawByte s.draws b (racedBytes s.during a))
  else .notAdmitted

/-- One read was made at `a` (R46; logs 14, 15). -/
def noteRead (a : Nat) (s : State) : State :=
  { s with reads := s.reads ++ [a], draws := s.draws + 1 }

/-- The reads of R67: `n` bytes from address `a`, each once, in ascending order, without wrap-around. The first read that is
not admitted leaves the block stuck (R114). -/
def readBytes : Nat → Nat → State → Host.Outcome (List Byte × State) Fault Refusal
  | 0, _, s => .next ([], s)
  | n + 1, a, s =>
    match memRead s a with
    | .notAdmitted => .fault .readNotAdmitted
    | .sideEffects => .refused .sideEffectRead
    | .byte b =>
      match readBytes n (a + 1) (noteRead a s) with
      | .next (bs, t) => .next (b :: bs, t)
      | .fault r => .fault r
      | .refused r => .refused r

/-! ### What the host does between commands -/

/-- The host stores a value of width `w` at `addr` in its own byte order (R65, R72). -/
def hostStore (addr : Nat) (w : Width) (v : Dword) (s : State) : State :=
  { s with mem := memWriteBytes s.mem addr (layoutBytes s.cfg.hostOrder w v) }

/-- The reset values of R44; the model's record of the last command's reads is emptied with them (log 14). -/
def resetBlock (s : State) : State :=
  { s with slots := Vector.replicate 4 [], res := 0, err := 0, cls := 0, reads := [] }

/-- The level of `RST` changes or is driven again (R250): from its assertion to its release the block holds the reset
values (log 8). Driving a released `RST` low again does nothing. -/
def driveRst (level : Bool) (s : State) : State :=
  if level || s.rst then resetBlock { s with rst := level } else s

/-- `RST` is asserted and the first action is a command: the block takes no command (R250), so the command waits for a
response (R47), and only an action of the host that needs no response can happen meanwhile (log 9). -/
def waitUnderReset (s : State) : State :=
  match s.host with
  | c :: .store addr w v :: rest => hostStore addr w v { s with host := c :: rest }
  | c :: .rst level :: rest => driveRst level { s with host := c :: rest }
  | _ => s

/-! ### Taking and completing a command -/

/-- The block takes the command on its port (R47, R256); `rest` are the host's later actions. -/
def acceptCommand (cmd : Word) (opa : Dword) (during : List Host.Cell) (rest : List HostEvent) (s : State) : State :=
  { s with cmd := cmd, opa := opa, during := during, reads := [], host := rest }

/-- The response appears: the writes other agents made meanwhile are in memory, the last one standing (R64, R73, log 11). -/
def finishCommand (s : State) : State :=
  { s with mem := memWriteCells s.mem s.during, during := [] }

/-- The block is stuck (R114). If the host asserts `RST` before it presents another command, the capture is abandoned
without a response and the state is the reset state (R251, log 7); otherwise there is no step. -/
def abandonStuck (s : State) : List HostEvent → Option State
  | [] => none
  | .command _ _ _ :: _ => none
  | .rst true :: rest => some (driveRst true { s with host := rest })
  | .rst false :: rest => abandonStuck s rest
  | .store addr w v :: rest => abandonStuck (hostStore addr w v s) rest

/-- From a meaning's answer, given at the state `s` that took the command, to the step's answer (R251, R256). -/
def settle (s : State) : Result → Result
  | .next t => .next (finishCommand t)
  | .refused r => .refused r
  | .fault .readNotAdmitted =>
    match abandonStuck (finishCommand s) s.host with
    | some t => .next t
    | none => .fault .readNotAdmitted

/-- A word that decodes to `Illegal` fails with IllegalOp and changes nothing but `ERR` (R89, R227). -/
def rejectIllegal (s : State) : Result := .next (raise .illegalOp s)

end Sys2Proof.Machine
end

