-- ==== Sys2Proof/Machine/Float.lean ====
section
/-! DEFINITION. The float decode commands (42_float_decode.md): field extraction, output patterns, and the exact real value
a pattern stands for. -/

namespace Sys2Proof.Machine

/-- The sign, biased exponent and mantissa fields of a pattern (R181). -/
structure FloatFields where
  sign : Nat
  E : Nat
  M : Nat
  deriving DecidableEq, Repr

/-- Field extraction by bit ranges (R181, R193): `s = P[N-1]`, `E = P[N-2:p]`, `M = P[p-1:0]`. -/
def floatFields (F : FloatFormat) (q : BitSeq) : FloatFields where
  sign := readUnsignedRange q (formatWidth F - 1) (formatWidth F - 1)
  E := readUnsignedRange q (mantissaWidth F) (formatWidth F - 2)
  M := readUnsignedRange q 0 (mantissaWidth F - 1)

/-- `s ∥ E ∥ M` at the widths of the format, as a number (R15, R186). -/
def joinFields (F : FloatFormat) (sign E M : Nat) : Nat :=
  sign * 2 ^ (formatWidth F - 1) + E * 2 ^ mantissaWidth F + M

/-- The fraction of the canonical NaN (R11, R188). -/
def nanFraction (c : Config) : FloatFormat → Nat
  | .binary32 => c.nan32Frac.toNat
  | .binary64 => c.nan64Frac.toNat

/-- The sign `sn` of the canonical NaN (R188). -/
def nanSignBit (c : Config) (sign : Nat) : Nat :=
  match c.nanSign with
  | .apply => sign
  | .drop => 0

/-- The output pattern for each class (R186, R188). -/
def outPattern (c : Config) (F : FloatFormat) (f : FloatFields) : Nat :=
  match classify F f.E f.M with
  | .zero => joinFields F f.sign 0 0
  | .subnormal => joinFields F f.sign 0 f.M
  | .normal => joinFields F f.sign f.E f.M
  | .infinity => joinFields F f.sign (exponentMax F) 0
  | .nan => joinFields F (nanSignBit c f.sign) (exponentMax F) (nanFraction c F)

/-- The two float decoders (R190, R200, R204): WrongWidth unless the slot is exactly `N` bits, else the output pattern in
`RES` and the class in `CLS`. -/
def decodeFloat (F : FloatFormat) (ss : SlotNum) (s : State) : Result :=
  if bitLength (readSlot s ss) ≠ formatWidth F then .next (raise .wrongWidth s)
  else
    let f := floatFields F (readSlot s ss)
    .next (succeed (writeCls (classify F f.E f.M) (writeRes (BitVec.ofNat 64 (outPattern s.cfg F f)) s)))

/-- DECF32 (R190). -/
def execDecf32 (ss : SlotNum) (s : State) : Result := decodeFloat .binary32 ss s

/-- DECF64 (R200). -/
def execDecf64 (ss : SlotNum) (s : State) : Result := decodeFloat .binary64 ss s

/-! ### The exact value of a pattern -/

/-- The set `Val` of R184. `finite n e` is the dyadic rational `n * 2^e` of R23. -/
inductive FloatValue where
  | zero (negative : Bool)
  | finite (n : Int) (e : Int)
  | infinity (negative : Bool)
  | nan
  deriving DecidableEq, Repr

/-- `(-1)^s * m` (R184). -/
def applySign (sign m : Nat) : Int := if sign = 1 then -(m : Int) else (m : Int)

/-- The decoded value `value(s, E, M)` (R184), with the exact closed forms of R183. -/
def floatValue (F : FloatFormat) (f : FloatFields) : FloatValue :=
  match classify F f.E f.M with
  | .zero => .zero (f.sign == 1)
  | .subnormal => .finite (applySign f.sign f.M) (1 - exponentBias F - mantissaWidth F)
  | .normal => .finite (applySign f.sign (2 ^ mantissaWidth F + f.M)) (f.E - exponentBias F - mantissaWidth F)
  | .infinity => .infinity (f.sign == 1)
  | .nan => .nan

/-- Two values are the same element of `Val`: signs of zeros and infinities count, and finite values are compared as numbers
(R184, C5). -/
def FloatValue.same : FloatValue → FloatValue → Prop
  | .zero a, .zero b => a = b
  | .finite n e, .finite m d => (n : Rat) * (2 : Rat) ^ e = (m : Rat) * (2 : Rat) ^ d
  | .infinity a, .infinity b => a = b
  | .nan, .nan => True
  | _, _ => False

/-- The number a finite value is: `n * 2^e` (R23). Zero of either sign is 0; infinities and NaN are no numbers. -/
def FloatValue.toRat : FloatValue → Option Rat
  | .zero _ => some 0
  | .finite n e => some ((n : Rat) * (2 : Rat) ^ e)
  | .infinity _ => none
  | .nan => none

/-- The source's sum over the set bits of `M`, each bit `i` contributing `2^(i + e)` (R183, the source form). -/
def bitSeries (M : Nat) (e : Int) : Nat → Rat
  | 0 => 0
  | i + 1 => bitSeries M e i + if M.testBit i then (2 : Rat) ^ ((i : Int) + e) else 0

/-- The magnitude in the source's form (R183): the series of the mantissa bits, with the leading term for a normal. -/
def seriesMagnitude (F : FloatFormat) (f : FloatFields) : Option Rat :=
  match classify F f.E f.M with
  | .zero => some 0
  | .subnormal => some (bitSeries f.M (subnormalExponent F - mantissaWidth F) (mantissaWidth F))
  | .normal =>
    some ((2 : Rat) ^ ((f.E : Int) - exponentBias F) +
      bitSeries f.M ((f.E : Int) - exponentBias F - mantissaWidth F) (mantissaWidth F))
  | .infinity => none
  | .nan => none

end Sys2Proof.Machine
end

