-- ==== Sys2Proof/Machine/Integer.lean ====
section
/-! DEFINITION. The integer decode commands (41_integer_decode.md). -/

namespace Sys2Proof.Machine

/-- The DECINT family (R150 to R156): WidthOverflow if the slot is longer than `W` bits, else its pattern, extended to
`RES` from width `W` (never from the slot's own length, R154). -/
def decodeInt (w : Width) (signed : Bool) (ss : SlotNum) (s : State) : Result :=
  if widthBits w < bitLength (readSlot s ss) then .next (raise .widthOverflow s)
  else .next (succeed (writeRes (extendResult signed (accumulate (widthBits w) (readSlot s ss))) s))

/-- DECU8 (R163). -/
def execDecu8 (ss : SlotNum) (s : State) : Result := decodeInt .w8 false ss s

/-- DECU16 (R164). -/
def execDecu16 (ss : SlotNum) (s : State) : Result := decodeInt .w16 false ss s

/-- DECU32 (R165). -/
def execDecu32 (ss : SlotNum) (s : State) : Result := decodeInt .w32 false ss s

/-- DECU64 (R166). -/
def execDecu64 (ss : SlotNum) (s : State) : Result := decodeInt .w64 false ss s

/-- DECS8 (R167). -/
def execDecs8 (ss : SlotNum) (s : State) : Result := decodeInt .w8 true ss s

/-- DECS16 (R168). -/
def execDecs16 (ss : SlotNum) (s : State) : Result := decodeInt .w16 true ss s

/-- DECS32 (R169). -/
def execDecs32 (ss : SlotNum) (s : State) : Result := decodeInt .w32 true ss s

/-- DECS64 (R170). -/
def execDecs64 (ss : SlotNum) (s : State) : Result := decodeInt .w64 true ss s

end Sys2Proof.Machine
end

