-- ==== Sys2Proof/Machine/Sequence.lean ====
section
/-! DEFINITION. The BitSequence commands: capture, copy and inspection (40_sequence.md). -/

namespace Sys2Proof.Machine

/-- CAPM (R110 to R115): the checks in the order of R227, then the reads of R67, then the whole slot at once. -/
def execCapm (sd : SlotNum) (len : Imm) (s : State) : Result :=
  if len.toNat % 8 ≠ 0 then .next (raise .invalidLength s)
  else if s.opa = 0 then .next (succeed (writeSlot sd [] s))
  else if s.cfg.maxb < len.toNat / 8 then .next (raise .capacityExceeded s)
  else
    match readBytes (len.toNat / 8) s.opa.toNat s with
    | .next (bs, t) => .next (succeed (writeSlot sd bs t))
    | .fault r => .fault r
    | .refused r => .refused r

/-- The CAPV family (R116): the slot gets the bytes of `OPA[W-1:0]`, low byte first. -/
def captureValue (w : Width) (sd : SlotNum) (s : State) : Result :=
  .next (succeed (writeSlot sd (valueBytes w s.opa) s))

/-- CAPV8 (R118). -/
def execCapv8 (sd : SlotNum) (s : State) : Result := captureValue .w8 sd s

/-- CAPV16 (R119). -/
def execCapv16 (sd : SlotNum) (s : State) : Result := captureValue .w16 sd s

/-- CAPV32 (R120). -/
def execCapv32 (sd : SlotNum) (s : State) : Result := captureValue .w32 sd s

/-- CAPV64 (R121). -/
def execCapv64 (sd : SlotNum) (s : State) : Result := captureValue .w64 sd s

/-- COPY (R123, R124): the source is read whole before the destination is written. -/
def execCopy (sd ss : SlotNum) (s : State) : Result :=
  .next (succeed (writeSlot sd (readSlot s ss) s))

/-- BITLEN (R127). -/
def execBitlen (ss : SlotNum) (s : State) : Result :=
  .next (succeed (writeRes (BitVec.ofNat 64 (bitLength (readSlot s ss))) s))

/-- GETBIT (R130, R131). -/
def execGetbit (ss : SlotNum) (pos : Imm) (s : State) : Result :=
  if bitLength (readSlot s ss) ≤ pos.toNat then .next (raise .outOfRange s)
  else .next (succeed (writeRes ((getBit (readSlot s ss) pos.toNat).setWidth 64) s))

/-- RDBYTE (R135, R136). -/
def execRdbyte (ss : SlotNum) (index : Imm) (s : State) : Result :=
  match (readSlot s ss)[index.toNat]? with
  | none => .next (raise .outOfRange s)
  | some b => .next (succeed (writeRes (b.setWidth 64) s))

end Sys2Proof.Machine
end

