-- ==== Sys2Proof/Machine/Dispatch.lean ====
section
/-! DEFINITION. The meaning of each command, one arm per constructor. -/

namespace Sys2Proof.Machine

def exec (i : Instr) (s : State) : Host.Outcome State Fault Refusal :=
  match i with
  | .capm sd bitLength => Sys2Proof.Machine.execCapm sd bitLength s
  | .capv8 sd => Sys2Proof.Machine.execCapv8 sd s
  | .capv16 sd => Sys2Proof.Machine.execCapv16 sd s
  | .capv32 sd => Sys2Proof.Machine.execCapv32 sd s
  | .capv64 sd => Sys2Proof.Machine.execCapv64 sd s
  | .copy sd ss => Sys2Proof.Machine.execCopy sd ss s
  | .bitlen ss => Sys2Proof.Machine.execBitlen ss s
  | .getbit ss pos => Sys2Proof.Machine.execGetbit ss pos s
  | .rdbyte ss index => Sys2Proof.Machine.execRdbyte ss index s
  | .decu8 ss => Sys2Proof.Machine.execDecu8 ss s
  | .decu16 ss => Sys2Proof.Machine.execDecu16 ss s
  | .decu32 ss => Sys2Proof.Machine.execDecu32 ss s
  | .decu64 ss => Sys2Proof.Machine.execDecu64 ss s
  | .decs8 ss => Sys2Proof.Machine.execDecs8 ss s
  | .decs16 ss => Sys2Proof.Machine.execDecs16 ss s
  | .decs32 ss => Sys2Proof.Machine.execDecs32 ss s
  | .decs64 ss => Sys2Proof.Machine.execDecs64 ss s
  | .decf32 ss => Sys2Proof.Machine.execDecf32 ss s
  | .decf64 ss => Sys2Proof.Machine.execDecf64 ss s

end Sys2Proof.Machine
end

