-- ==== Sys2Proof/Machine/Step.lean ====
section
/-! DEFINITION. One step of the machine: the host's next action (70_reset_and_hazards.md R256, R259). -/

namespace Sys2Proof.Machine

/-- One step. A command is taken, decoded and run to its response as one step (R47, R88, R256), unless `RST` is asserted
(R250). With no action to come the block idles and keeps its state (R236, R252, log 2). -/
def step (s : State) : Host.Outcome State Fault Refusal :=
  match s.host with
  | [] => .next s
  | .store addr w v :: rest => .next (hostStore addr w v { s with host := rest })
  | .rst level :: rest => .next (driveRst level { s with host := rest })
  | .command cmd opa during :: rest =>
    if s.rst then .next (waitUnderReset s)
    else
      let p := acceptCommand cmd opa during rest s
      match decode p.cfg p.cmd with
      | .instr i => settle p (exec i p)
      | .illegal _ => settle p (rejectIllegal p)

/-- The host presents the word with bits `w` (its low `nbits` bits) next, with the operand already on `OPA` and no other
agent writing memory, while `RST` is released: the next step takes and runs it (log 1). -/
def State.withFetchWord (s : State) (nbits w : Nat) : State :=
  { s with
    rst := false
    host := .command (BitVec.ofNat 32 (w % 2 ^ nbits)) s.opa [] :: s.host }

end Sys2Proof.Machine
end

