-- ==== Sys2Proof/Safety.lean ====
section
/-! DEFINITION. What statements are made of: the canonical form of memory, the invariant that every step keeps, the parts of
the state a command leaves alone, and the shapes of a command's answer. -/

namespace Sys2Proof.Machine

/-- The addresses of the list rise strictly and lie above `low`. -/
def Memory.risesFrom (low : Nat) : Memory → Bool
  | [] => true
  | c :: cs => decide (low ≤ c.1) && Memory.risesFrom (c.1 + 1) cs

/-- The canonical form of host memory (log 5): addresses strictly rising, all below `2^64`, the widest `ADDR_W` of R11. An
unlisted address has no value, so no entry can equal what it reads as. -/
def Memory.wf (m : Memory) : Bool :=
  Memory.risesFrom 0 m && m.all fun c => decide (c.1 < 2 ^ 64)

/-- The invariant: legal parameters (R11); at most `MAXB` bytes a slot (R33); a slot the block does not have is empty
(log 17); `ERR` is never 7 (R221) and `CLS` never 6 or 7 (R39); memory in canonical form. -/
abbrev State.Inv (s : State) : Prop :=
  s.cfg.Legal ∧ (∀ k : SlotNum, (readSlot s k).length ≤ s.cfg.maxb) ∧
    (∀ k : SlotNum, s.cfg.nseq ≤ k.toNat → readSlot s k = []) ∧
    s.err ≠ 7 ∧ s.cls ≠ 6 ∧ s.cls ≠ 7 ∧ Memory.wf s.mem = true

/-- No slot differs (R34, R35). -/
abbrev SameSlots (s t : State) : Prop := ∀ k : SlotNum, readSlot t k = readSlot s k

/-- No slot but `sd` differs (R34, R35). -/
abbrev SameSlotsBut (sd : SlotNum) (s t : State) : Prop := ∀ k : SlotNum, k ≠ sd → readSlot t k = readSlot s k

/-- Nothing outside the block's registers differs, the record of memory reads apart: parameters (R42), signals, host memory
byte by byte and as a whole (R46, R75), device regions, other agents' writes, and the host's actions to come. -/
abbrev SameOutside (s t : State) : Prop :=
  t.cfg = s.cfg ∧ t.rst = s.rst ∧ t.cmd = s.cmd ∧ t.opa = s.opa ∧ t.mem = s.mem ∧
    (∀ a, memLookup t.mem a = memLookup s.mem a) ∧ t.devices = s.devices ∧ t.during = s.during ∧ t.host = s.host

/-- No memory read was made. -/
abbrev NoReads (s t : State) : Prop := t.reads = s.reads ∧ t.draws = s.draws

/-- The command failed with error `e`: `ERR` holds its code, and `S`, `RES`, `CLS` and everything else are as before, no
memory read made (R18, R220, R225). -/
abbrev FailedWith (e : ErrorKind) (s t : State) : Prop :=
  t.err = errorCode e ∧ SameSlots s t ∧ t.res = s.res ∧ t.cls = s.cls ∧ SameOutside s t ∧ NoReads s t

/-- The command captured `q` into `sd`: that slot is `q`, `ERR` is 0, and the other slots, `RES`, `CLS` and everything
outside the block are as before (R34, R35, R37, R39). -/
abbrev Captured (sd : SlotNum) (q : BitSeq) (s t : State) : Prop :=
  readSlot t sd = q ∧ t.err = 0 ∧ SameSlotsBut sd s t ∧ t.res = s.res ∧ t.cls = s.cls ∧ SameOutside s t

/-- The command returned `v`: `RES` is `v`, `ERR` is 0, and the slots, `CLS` and everything else are as before, no memory
read made (R35, R37, R39). -/
abbrev Returned (v : Dword) (s t : State) : Prop :=
  t.res = v ∧ t.err = 0 ∧ SameSlots s t ∧ t.cls = s.cls ∧ SameOutside s t ∧ NoReads s t

/-- The command returned `v` with class `c`: as `Returned`, and `CLS` holds the code of `c` (R37, R39). -/
abbrev ReturnedClass (v : Dword) (c : FloatClass) (s t : State) : Prop :=
  t.res = v ∧ t.cls = classCode c ∧ t.err = 0 ∧ SameSlots s t ∧ SameOutside s t ∧ NoReads s t

/-- Memory admits the read of address `a`: below `2^ADDR_W`, listed, and in no region with read side effects (R64, R68). -/
abbrev Admits (s : State) (a : Nat) : Prop :=
  a < 2 ^ s.cfg.addrW ∧ isDevice s.devices a = false ∧ (memLookup s.mem a).isSome = true

/-- The byte `b` is one that address `a` held between the acceptance of the current command and its response: the byte in
memory, or one that another agent wrote (R73). -/
abbrev HeldByte (s : State) (a : Nat) (b : Byte) : Prop :=
  memLookup s.mem a = some b ∨ b ∈ racedBytes s.during a

/-- The pattern of a canonical NaN of the format, whatever the parameters: exponent all ones, fraction not zero, nothing
above the format's width (R188). -/
abbrev IsNanPattern (F : FloatFormat) (v : Dword) : Prop :=
  v.toNat < 2 ^ formatWidth F ∧ v.toNat / 2 ^ mantissaWidth F % (exponentMax F + 1) = exponentMax F ∧
    v.toNat % 2 ^ mantissaWidth F ≠ 0

/-- The block's registers hold the reset values of R44. -/
abbrev HoldsResetValues (s : State) : Prop :=
  (∀ k : SlotNum, readSlot s k = []) ∧ s.res = 0 ∧ s.err = 0 ∧ s.cls = 0

/-- The CAPV command of each width (R118 to R121). -/
def capvOf : Width → SlotNum → Instr
  | .w8, sd => .capv8 sd
  | .w16, sd => .capv16 sd
  | .w32, sd => .capv32 sd
  | .w64, sd => .capv64 sd

/-- The DECU command of each width (R163 to R166). -/
def decuOf : Width → SlotNum → Instr
  | .w8, ss => .decu8 ss
  | .w16, ss => .decu16 ss
  | .w32, ss => .decu32 ss
  | .w64, ss => .decu64 ss

/-- The DECS command of each width (R167 to R170). -/
def decsOf : Width → SlotNum → Instr
  | .w8, ss => .decs8 ss
  | .w16, ss => .decs16 ss
  | .w32, ss => .decs32 ss
  | .w64, ss => .decs64 ss

/-- The float decoder of each format (R190, R200). -/
def decfOf : FloatFormat → SlotNum → Instr
  | .binary32, ss => .decf32 ss
  | .binary64, ss => .decf64 ss

/-- The width of a value of the format. -/
def formatValueWidth : FloatFormat → Width
  | .binary32 => .w32
  | .binary64 => .w64

end Sys2Proof.Machine
end

