-- ==== Sys2Proof/Certificates/Slice0/Obligations.lean ====
section
/-! DEFINITION. The statements about bitop CORE, from the numbered rules of spec/. -/

open Sys2Proof Sys2Proof.Machine

/-! ### Encoding -/

/-- Decoding the word of a command the block has gives that command, every operand at every value (R80, R87, R88). -/
def Obligations.DecodeOfEncode : Prop :=
  ∀ (c : Config) (i : Instr), i.wf c = true → decode c (encode i) = .instr i

/-- Each word has at most one meaning: a word that decodes to a command is that command's word (R87, R88, R91). -/
def Obligations.EncodeOfDecode : Prop :=
  ∀ (c : Config) (w : Word) (i : Instr), decode c w = .instr i → encode i = w ∧ i.wf c = true

/-- Decoding is the total function of R88 over the table of R87: at most one row admits a word; a word that no row admits is
Illegal; a word that a row admits is that row's command with its operands, unless a slot it uses is absent. -/
def Obligations.DecoderFollowsOpcodeMap : Prop :=
  ∀ (c : Config) (w : Word),
    (∀ r ∈ opcodeMap, ∀ r' ∈ opcodeMap, r.admits w = true → r'.admits w = true → r = r') ∧
    ((∀ r ∈ opcodeMap, r.admits w = false) → ∃ why, decode c w = .illegal why) ∧
    (∀ r ∈ opcodeMap, r.admits w = true →
      ∃ i, i.mnemonic = r.mnemonic ∧ encode i = w ∧
        decode c w = if i.wf c = true then .instr i else .illegal .absentSlot)

/-- Words written out from the spec's vectors decode to the commands they stand for (95_test_vectors.md, R87). -/
def Obligations.SpecWordsDecode : Prop :=
  decode Config.default 0x00200101 = .instr (.capm 1 32) ∧
  decode Config.default 0x00001302 = .instr (.capv16 3) ∧
  decode Config.default 0x00000703 = .instr (.copy 3 1) ∧
  decode Config.default 0x00000804 = .instr (.bitlen 2) ∧
  decode Config.default 0x001F0405 = .instr (.getbit 1 31) ∧
  decode Config.default 0x00070406 = .instr (.rdbyte 1 7) ∧
  decode Config.default 0x00002410 = .instr (.decu32 1) ∧
  decode Config.default 0x00004C10 = .instr (.decs8 3) ∧
  decode Config.default 0x00000C20 = .instr (.decf32 3) ∧
  decode Config.default 0x00000421 = .instr (.decf64 1)

/-- The reserved encodings of R89 are Illegal: an opcode not in R81; a field that the command's row fixes to 0 with another
value; `FN[3:2] ≠ 0` in CAPV and `FN[3] = 1` in DECINT; a used slot field not below `NSEQ`. -/
def Obligations.ReservedEncodingsAreIllegal : Prop :=
  ∀ (c : Config) (w : Word),
    let f := CmdFields.ofWord w
    let o := f.opc.toNat
    (o ∉ [0x01, 0x02, 0x03, 0x04, 0x05, 0x06, 0x10, 0x20, 0x21] → ∃ why, decode c w = .illegal why) ∧
    (o ∈ [0x01, 0x02] → f.ss ≠ 0 → ∃ why, decode c w = .illegal why) ∧
    (o ∈ [0x04, 0x05, 0x06, 0x10, 0x20, 0x21] → f.sd ≠ 0 → ∃ why, decode c w = .illegal why) ∧
    (o ∈ [0x01, 0x03, 0x04, 0x05, 0x06, 0x20, 0x21] → f.fn ≠ 0 → ∃ why, decode c w = .illegal why) ∧
    (o ∈ [0x02, 0x03, 0x04, 0x10, 0x20, 0x21] → f.imm ≠ 0 → ∃ why, decode c w = .illegal why) ∧
    (o = 0x02 → 4 ≤ f.fn.toNat → ∃ why, decode c w = .illegal why) ∧
    (o = 0x10 → 8 ≤ f.fn.toNat → ∃ why, decode c w = .illegal why) ∧
    (o ∈ [0x01, 0x02, 0x03] → c.nseq ≤ f.sd.toNat → ∃ why, decode c w = .illegal why) ∧
    (o ∈ [0x03, 0x04, 0x05, 0x06, 0x10, 0x20, 0x21] → c.nseq ≤ f.ss.toNat → ∃ why, decode c w = .illegal why)

/-! ### The step -/

/-- When the command on the port decodes to `i`, the step is `exec i` at the state that took the command, then the
completion around it: other agents' writes land in memory, and a stuck capture has no step unless `RST` abandons it
(R47, R88, R251, R256; where the writes land and the look-ahead to `RST` are the model's,
logs 7 and 11). -/
def Obligations.StepRunsDecodedCommand : Prop :=
  ∀ (s : State) (cmd : Word) (opa : Dword) (during : List Host.Cell) (rest : List HostEvent) (i : Instr),
    s.rst = false → s.host = .command cmd opa during :: rest → decode s.cfg cmd = .instr i →
    let p := acceptCommand cmd opa during rest s
    step s = settle p (exec i p) ∧
    (∀ t, exec i p = .next t → step s = .next (finishCommand t)) ∧
    (∀ r, exec i p = .refused r → step s = .refused r) ∧
    (exec i p = .fault .readNotAdmitted →
      (abandonStuck (finishCommand p) rest = none → step s = .fault .readNotAdmitted) ∧
      (∀ t, abandonStuck (finishCommand p) rest = some t → step s = .next t))

/-- A word that decodes to Illegal sets `ERR` to 6 and changes nothing else of the block, with no memory access; the command
is consumed, and memory holds what other agents wrote meanwhile (R89, R221; log 11). -/
def Obligations.IllegalWordSetsErrOnly : Prop :=
  ∀ (s : State) (cmd : Word) (opa : Dword) (during : List Host.Cell) (rest : List HostEvent) (why : Illegal),
    s.rst = false → s.host = .command cmd opa during :: rest → decode s.cfg cmd = .illegal why →
    ∃ t, step s = .next t ∧ t.err = 6 ∧ SameSlots s t ∧ t.res = s.res ∧ t.cls = s.cls ∧ t.cfg = s.cfg ∧
      t.mem = memWriteCells s.mem during ∧ t.reads = [] ∧ t.draws = s.draws ∧ t.host = rest

/-- With no action of the host to come, the block idles and keeps all of its state (R236, R252; log 2). -/
def Obligations.IdleKeepsState : Prop :=
  ∀ s : State, s.host = [] → step s = .next s

/-- A step that performs a store of the host writes the stored bytes and no other byte of memory, and changes no slot and no
register of the block (R71, R72, R77). -/
def Obligations.HostStoreKeepsTheBlock : Prop :=
  ∀ (s : State) (addr : Nat) (w : Width) (v : Dword) (rest : List HostEvent),
    s.host = .store addr w v :: rest →
    ∃ t, step s = .next t ∧ SameSlots s t ∧ t.res = s.res ∧ t.err = s.err ∧ t.cls = s.cls ∧ t.rst = s.rst ∧
      t.host = rest ∧ t.mem = (hostStore addr w v s).mem ∧
      ∀ a, ¬ (addr ≤ a ∧ a < addr + widthBytes w) → memLookup t.mem a = memLookup s.mem a

/-! ### Reset -/

/-- The state after reset: every slot empty, `RES`, `ERR` and `CLS` zero (R44). -/
def Obligations.ResetValues : Prop :=
  (∀ k : SlotNum, readSlot State.reset k = []) ∧ State.reset.res = 0x0000000000000000 ∧ State.reset.err = 0 ∧
    State.reset.cls = 0

/-- `RST` (R250, R251): asserting it between commands leads to a state with `RST` asserted, which holds the reset values (from
the assertion on: log 8). While it is asserted a command is not taken: it stays first among the host's actions (log 9), and
the block's registers keep their values or hold the reset values. Releasing it leaves the reset values, with or without a
command waiting in front, and a store of the host behind a waiting command is performed (log 9). Driving a released `RST` low
changes nothing (log 8). -/
def Obligations.RstHoldsAndResetsTheBlock : Prop :=
  (∀ (s : State) (rest : List HostEvent), s.host = .rst true :: rest →
    ∃ t, step s = .next t ∧ t.rst = true ∧ HoldsResetValues t ∧ t.cfg = s.cfg ∧ t.mem = s.mem ∧ t.host = rest) ∧
  (∀ (s : State) (cmd : Word) (opa : Dword) (during : List Host.Cell) (rest : List HostEvent),
    s.rst = true → s.host = .command cmd opa during :: rest →
    ∃ t rest', step s = .next t ∧ t.host = .command cmd opa during :: rest' ∧ t.cmd = s.cmd ∧ t.opa = s.opa ∧
      t.draws = s.draws ∧
      ((SameSlots s t ∧ t.res = s.res ∧ t.err = s.err ∧ t.cls = s.cls) ∨ HoldsResetValues t)) ∧
  (∀ (s : State) (rest : List HostEvent), s.rst = true → s.host = .rst false :: rest →
    ∃ t, step s = .next t ∧ HoldsResetValues t ∧ t.rst = false ∧ t.cfg = s.cfg ∧ t.mem = s.mem ∧ t.host = rest) ∧
  (∀ (s : State) (cmd : Word) (opa : Dword) (during : List Host.Cell) (rest : List HostEvent),
    s.rst = true → s.host = .command cmd opa during :: .rst false :: rest →
    ∃ t, step s = .next t ∧ HoldsResetValues t ∧ t.rst = false ∧ t.cfg = s.cfg ∧ t.mem = s.mem ∧
      t.host = .command cmd opa during :: rest) ∧
  (∀ (s : State) (cmd : Word) (opa : Dword) (during : List Host.Cell) (addr : Nat) (w : Width) (v : Dword)
    (rest : List HostEvent), s.rst = true → s.host = .command cmd opa during :: .store addr w v :: rest →
    step s = .next { hostStore addr w v s with host := .command cmd opa during :: rest }) ∧
  (∀ (s : State) (rest : List HostEvent), s.rst = false → s.host = .rst false :: rest →
    step s = .next { s with host := rest })

/-- `RST` asserted while a CAPM is stuck abandons that CAPM: the step leads to the reset state, with no response, and not to
the values from before the CAPM (R251; that this is one step is the model's choice, log 7). -/
def Obligations.ResetAbandonsStuckCapture : Prop :=
  ∀ (s : State) (cmd : Word) (opa : Dword) (during : List Host.Cell) (rest : List HostEvent) (sd : SlotNum) (n : Imm),
    s.rst = false → s.host = .command cmd opa during :: .rst true :: rest → decode s.cfg cmd = .instr (.capm sd n) →
    exec (.capm sd n) (acceptCommand cmd opa during (.rst true :: rest) s) = .fault .readNotAdmitted →
    ∃ t, step s = .next t ∧ HoldsResetValues t ∧ t.rst = true ∧ t.host = rest ∧ t.cfg = s.cfg

/-- On an empty slot, as every slot is straight after reset: BITLEN gives 0, GETBIT and RDBYTE fail with OutOfRange for every
position and index, every DECU and DECS gives 0 with `ERR = 0`, and DECF32 and DECF64 fail with WrongWidth (R156, R254). -/
def Obligations.CommandsOnEmptySlots : Prop :=
  ∀ (s : State) (k : SlotNum) (x : Imm), readSlot s k = [] →
    (∃ t, exec (.bitlen k) s = .next t ∧ Returned 0 s t) ∧
    (∃ t, exec (.getbit k x) s = .next t ∧ FailedWith .outOfRange s t) ∧
    (∃ t, exec (.rdbyte k x) s = .next t ∧ FailedWith .outOfRange s t) ∧
    (∀ w : Width, ∃ t, exec (decuOf w k) s = .next t ∧ Returned 0 s t) ∧
    (∀ w : Width, ∃ t, exec (decsOf w k) s = .next t ∧ Returned 0 s t) ∧
    (∃ t, exec (.decf32 k) s = .next t ∧ FailedWith .wrongWidth s t) ∧
    (∃ t, exec (.decf64 k) s = .next t ∧ FailedWith .wrongWidth s t)

/-! ### Host memory -/

/-- `MemRead`: an address at or above `2^ADDR_W` or not admitted is not admitted; an admitted address that no other agent
writes answers the byte there; and a byte the host stores at an admitted address is the byte the next read answers (R64). -/
def Obligations.MemReadAnswers : Prop :=
  ∀ (s : State) (a : Nat),
    (2 ^ s.cfg.addrW ≤ a → memRead s a = .notAdmitted) ∧
    (isDevice s.devices a = false → memLookup s.mem a = none → memRead s a = .notAdmitted) ∧
    (∀ b, a < 2 ^ s.cfg.addrW → isDevice s.devices a = false → memLookup s.mem a = some b → racedBytes s.during a = [] →
      memRead s a = .byte b) ∧
    (∀ v : Dword, Admits s a → racedBytes s.during a = [] →
      memRead (hostStore a .w8 v s) a = .byte (v.extractLsb' 0 8))

/-- A byte another agent writes while it is read answers some value the address held between acceptance and response,
whatever the draw (R73). -/
def Obligations.RacedReadAnswersAHeldByte : Prop :=
  ∀ (s : State) (a : Nat), Admits s a → ∃ b, memRead s a = .byte b ∧ HeldByte s a b

/-! ### CAPM -/

/-- CAPM with a multiple-of-8 length, a non-null pointer, room in the slot and admitted memory captures one byte from each
address in ascending order, each read once, into the whole of the slot, and changes nothing else but `ERR` (R67, R110,
R115). Each byte is one its address held during the command (R73). -/
def Obligations.CapmCaptures : Prop :=
  ∀ (sd : SlotNum) (len : Imm) (s : State),
    len.toNat % 8 = 0 → s.opa ≠ 0 → len.toNat / 8 ≤ s.cfg.maxb →
    (∀ j, j < len.toNat / 8 → Admits s (s.opa.toNat + j)) →
    ∃ bs t, exec (.capm sd len) s = .next t ∧ bs.length = len.toNat / 8 ∧ Captured sd bs s t ∧
      (∀ (j : Nat) (b : Byte), bs[j]? = some b → HeldByte s (s.opa.toNat + j) b) ∧
      t.reads = s.reads ++ List.range' s.opa.toNat (len.toNat / 8) ∧ t.draws = s.draws + len.toNat / 8

/-- With no other writer, byte `j` of the captured sequence is the byte in memory at `ptr + j` (R62, R64). -/
def Obligations.CapmBytesInAddressOrder : Prop :=
  ∀ (sd : SlotNum) (len : Imm) (s t : State),
    s.opa ≠ 0 → s.during = [] → exec (.capm sd len) s = .next t → t.err = 0 →
    (readSlot t sd).length = len.toNat / 8 ∧
    ∀ j, j < len.toNat / 8 → (readSlot t sd)[j]? = memLookup s.mem (s.opa.toNat + j)

/-- CAPM through the null pointer with a multiple-of-8 length captures the empty sequence and reads nothing; so does a length
of 0 through any pointer (R112). -/
def Obligations.CapmNullIsEmpty : Prop :=
  ∀ (sd : SlotNum) (len : Imm) (s : State), len.toNat % 8 = 0 → (s.opa = 0 ∨ len = 0) →
    ∃ t, exec (.capm sd len) s = .next t ∧ Captured sd [] s t ∧ NoReads s t

/-- CAPM with a length that is not a multiple of 8 always fails with InvalidLength, the null pointer included (R111). -/
def Obligations.CapmInvalidLength : Prop :=
  ∀ (sd : SlotNum) (len : Imm) (s : State), len.toNat % 8 ≠ 0 →
    ∃ t, exec (.capm sd len) s = .next t ∧ FailedWith .invalidLength s t

/-- CAPM of more than `MAXB` bytes through a non-null pointer fails with CapacityExceeded before any read; with
`MAXB = 8191` no CAPM ever does (R113). -/
def Obligations.CapmCapacityExceeded : Prop :=
  (∀ (sd : SlotNum) (len : Imm) (s : State),
    len.toNat % 8 = 0 → s.opa ≠ 0 → s.cfg.maxb < len.toNat / 8 →
    ∃ t, exec (.capm sd len) s = .next t ∧ FailedWith .capacityExceeded s t) ∧
  (∀ (sd : SlotNum) (len : Imm) (s t : State),
    s.cfg.maxb = 8191 → exec (.capm sd len) s = .next t → t.err ≠ errorCode .capacityExceeded)

/-- A CAPM whose read of some byte is not admitted has no step, whatever the bytes read before it; without a reset to
abandon it the machine stops there (R64, R114, R226; log 6). -/
def Obligations.CapmStuckHasNoStep : Prop :=
  ∀ (sd : SlotNum) (len : Imm) (s : State) (j : Nat),
    len.toNat % 8 = 0 → s.opa ≠ 0 → len.toNat / 8 ≤ s.cfg.maxb → j < len.toNat / 8 →
    (∀ k, k < j → Admits s (s.opa.toNat + k)) → memRead s (s.opa.toNat + j) = .notAdmitted →
    exec (.capm sd len) s = .fault .readNotAdmitted ∧
      (abandonStuck (finishCommand s) s.host = none →
        settle s (exec (.capm sd len) s) = .fault .readNotAdmitted)

/-- The spec gives a CAPM no step over a region whose reads have side effects: the model refuses it by name (R68; log 12). -/
def Obligations.CapmOfDeviceRegionRefused : Prop :=
  ∀ (sd : SlotNum) (len : Imm) (s : State) (j : Nat),
    len.toNat % 8 = 0 → s.opa ≠ 0 → len.toNat / 8 ≤ s.cfg.maxb → j < len.toNat / 8 →
    (∀ k, k < j → Admits s (s.opa.toNat + k)) →
    s.opa.toNat + j < 2 ^ s.cfg.addrW → isDevice s.devices (s.opa.toNat + j) = true →
    exec (.capm sd len) s = .refused .sideEffectRead

/-- A W-bit value the host stores at `ptr` and CAPM captures from there: on a little-endian host the slot CAPV of that value
gives, on a big-endian host its bytes reversed (R65). -/
def Obligations.StoredValueCapturedInHostOrder : Prop :=
  ∀ (s : State) (sd : SlotNum) (w : Width) (v ptr : Dword),
    s.cfg.Legal → ptr ≠ 0 → (∀ j, j < widthBytes w → Admits s (ptr.toNat + j)) →
    ∃ t u, exec (.capm sd (BitVec.ofNat 16 (widthBits w)))
        { hostStore ptr.toNat w v s with opa := ptr, during := [] } = .next t ∧
      exec (capvOf w sd) { s with opa := v } = .next u ∧ t.err = 0 ∧ u.err = 0 ∧
      (s.cfg.hostOrder = .little → readSlot t sd = readSlot u sd) ∧
      (s.cfg.hostOrder = .big → readSlot t sd = (readSlot u sd).reverse)

/-! ### CAPV and COPY -/

/-- CAPV8, CAPV16, CAPV32 and CAPV64 (`FN` = 0, 1, 2, 3) capture 1, 2, 4 and 8 bytes of `OPA`, low byte first, and change
nothing else but `ERR` (R118, R119, R120, R121). -/
def Obligations.CapvCapturesLowByteFirst : Prop :=
  ∀ (sd : SlotNum) (s : State),
    (CmdFields.ofWord (encode (.capv8 sd))).fn = 0b0000 ∧ (CmdFields.ofWord (encode (.capv16 sd))).fn = 0b0001 ∧
    (CmdFields.ofWord (encode (.capv32 sd))).fn = 0b0010 ∧ (CmdFields.ofWord (encode (.capv64 sd))).fn = 0b0011 ∧
    (∃ t, exec (.capv8 sd) s = .next t ∧ NoReads s t ∧ Captured sd [s.opa.extractLsb' 0 8] s t) ∧
    (∃ t, exec (.capv16 sd) s = .next t ∧ NoReads s t ∧
      Captured sd [s.opa.extractLsb' 0 8, s.opa.extractLsb' 8 8] s t) ∧
    (∃ t, exec (.capv32 sd) s = .next t ∧ NoReads s t ∧
      Captured sd [s.opa.extractLsb' 0 8, s.opa.extractLsb' 8 8, s.opa.extractLsb' 16 8, s.opa.extractLsb' 24 8] s t) ∧
    (∃ t, exec (.capv64 sd) s = .next t ∧ NoReads s t ∧
      Captured sd [s.opa.extractLsb' 0 8, s.opa.extractLsb' 8 8, s.opa.extractLsb' 16 8, s.opa.extractLsb' 24 8,
        s.opa.extractLsb' 32 8, s.opa.extractLsb' 40 8, s.opa.extractLsb' 48 8, s.opa.extractLsb' 56 8] s t)

/-- After any CAPV the slot's pattern is `OPA[W-1:0]`, at `W` bits (R117, first sentence). -/
def Obligations.CapvPatternIsOperand : Prop :=
  ∀ (w : Width) (sd : SlotNum) (s : State),
    ∃ t, exec (capvOf w sd) s = .next t ∧ bitLength (readSlot t sd) = widthBits w ∧
      pattern (readSlot t sd) = s.opa.toNat % 2 ^ widthBits w

/-- COPY (its word in the row of R87) gives the destination the source's whole value and changes nothing else but `ERR`;
with `SD = SS` no slot changes (R123, R124). -/
def Obligations.CopyCopiesWholeSlot : Prop :=
  ∀ (sd ss : SlotNum) (s : State),
    encode (.copy sd ss) &&& 0xFFFFF0FF#32 = 0x00000003#32 ∧
    ∃ t, exec (.copy sd ss) s = .next t ∧ Captured sd (readSlot s ss) s t ∧ NoReads s t ∧ (sd = ss → SameSlots s t)

/-- After a COPY the two slots are independent: whatever command comes next, the one it does not name as destination keeps
the copied value (R125). -/
def Obligations.CopiesAreIndependent : Prop :=
  ∀ (sd ss : SlotNum) (i : Instr) (s t u : State),
    sd ≠ ss → exec (.copy sd ss) s = .next t → exec i t = .next u →
    (i.dest? ≠ some sd → readSlot u sd = readSlot s ss) ∧ (i.dest? ≠ some ss → readSlot u ss = readSlot s ss)

/-! ### Inspection -/

/-- BITLEN (its word in the row of R87) returns the byte count times 8, and changes nothing else but `ERR`; on a slot within
`MAXB` the result is that number and a multiple of 8 (R127, R128). -/
def Obligations.BitlenReturnsBitLength : Prop :=
  ∀ (ss : SlotNum) (s : State),
    encode (.bitlen ss) &&& 0xFFFFF3FF#32 = 0x00000004#32 ∧
    ∃ t, exec (.bitlen ss) s = .next t ∧ Returned (BitVec.ofNat 64 ((readSlot s ss).length * 8)) s t ∧
      ((readSlot s ss).length ≤ 8191 → t.res.toNat = (readSlot s ss).length * 8 ∧ t.res.toNat % 8 = 0)

/-- GETBIT (its word in the row of R87) of a position below the bit length returns `(byte[pos/8] >> (pos%8)) & 1`, which is
0 or 1; at or past it, it fails with OutOfRange (R130, R131). -/
def Obligations.GetbitReturnsBit : Prop :=
  ∀ (ss : SlotNum) (pos : Imm) (s : State),
    encode (.getbit ss pos) &&& 0x0000F3FF#32 = 0x00000005#32 ∧
    (∀ b, (readSlot s ss)[pos.toNat / 8]? = some b →
      ∃ t, exec (.getbit ss pos) s = .next t ∧ Returned (((b >>> (pos.toNat % 8)) &&& 1#8).setWidth 64) s t ∧
        (t.res = 0 ∨ t.res = 1)) ∧
    ((readSlot s ss).length * 8 ≤ pos.toNat →
      ∃ t, exec (.getbit ss pos) s = .next t ∧ FailedWith .outOfRange s t)

/-- RDBYTE (its word in the row of R87) of an index below the byte count returns that byte; at or past it, it fails with
OutOfRange (R135, R136). -/
def Obligations.RdbyteReturnsByte : Prop :=
  ∀ (ss : SlotNum) (index : Imm) (s : State),
    encode (.rdbyte ss index) &&& 0x0000F3FF#32 = 0x00000006#32 ∧
    (∀ b, (readSlot s ss)[index.toNat]? = some b →
      ∃ t, exec (.rdbyte ss index) s = .next t ∧ Returned (b.setWidth 64) s t) ∧
    ((readSlot s ss).length ≤ index.toNat →
      ∃ t, exec (.rdbyte ss index) s = .next t ∧ FailedWith .outOfRange s t)

/-! ### Integer decoding -/

/-- DECU8, DECU16, DECU32 and DECU64 (`FN` = 0 to 3) of a slot of at most 1, 2, 4 and 8 bytes return its pattern
zero-extended; of a longer slot they fail with WidthOverflow (R163, R164, R165, R166). -/
def Obligations.DecuReturnsPattern : Prop :=
  ∀ (ss : SlotNum) (s : State) (i : Instr) (n : Nat) (fn : BitVec 4),
    (i, n, fn) ∈ [(Instr.decu8 ss, 1, 0b0000), (Instr.decu16 ss, 2, 0b0001), (Instr.decu32 ss, 4, 0b0010),
      (Instr.decu64 ss, 8, 0b0011)] →
    (CmdFields.ofWord (encode i)).fn = fn ∧
    ((readSlot s ss).length ≤ n →
      ∃ t, exec i s = .next t ∧ Returned (BitVec.ofNat 64 (pattern (readSlot s ss))) s t ∧
        t.res.toNat = pattern (readSlot s ss)) ∧
    (n < (readSlot s ss).length → ∃ t, exec i s = .next t ∧ FailedWith .widthOverflow s t)

/-- DECS8, DECS16, DECS32 and DECS64 (`FN` = 4 to 7) of a slot of at most 1, 2, 4 and 8 bytes return its W-bit pattern
sign-extended from W bits; of a longer slot they fail with WidthOverflow (R167, R168, R169, R170). -/
def Obligations.DecsReturnsSignExtended : Prop :=
  ∀ (ss : SlotNum) (s : State) (i : Instr) (n : Nat) (fn : BitVec 4),
    (i, n, fn) ∈ [(Instr.decs8 ss, 1, 0b0100), (Instr.decs16 ss, 2, 0b0101), (Instr.decs32 ss, 4, 0b0110),
      (Instr.decs64 ss, 8, 0b0111)] →
    (CmdFields.ofWord (encode i)).fn = fn ∧
    ((readSlot s ss).length ≤ n →
      ∃ t, exec i s = .next t ∧
        Returned ((BitVec.ofNat (8 * n) (pattern (readSlot s ss))).signExtend 64) s t) ∧
    (n < (readSlot s ss).length → ∃ t, exec i s = .next t ∧ FailedWith .widthOverflow s t)

/-- Bit `p` of an integer decode's W-bit result is bit `p` of the slot for `p < 8n` and 0 for `8n ≤ p < W` (R152). -/
def Obligations.IntegerResultBits : Prop :=
  ∀ (w : Width) (ss : SlotNum) (s : State), bitLength (readSlot s ss) ≤ widthBits w →
    ∃ t u, exec (decuOf w ss) s = .next t ∧ exec (decsOf w ss) s = .next u ∧
      ∀ p, p < widthBits w →
        t.res.getLsbD p = u.res.getLsbD p ∧
        (p < bitLength (readSlot s ss) → t.res.getLsbD p = (getBit (readSlot s ss) p == 1#8)) ∧
        (bitLength (readSlot s ss) ≤ p → t.res.getLsbD p = false)

/-- The integer a DECU result is, read unsigned, is the W-bit pattern `r`; a DECS result, read as 64-bit two's complement, is
`r` if its bit `W-1` is 0 and `r - 2^W` otherwise (R153, R155). -/
def Obligations.IntegerResultValue : Prop :=
  ∀ (w : Width) (ss : SlotNum) (s : State), bitLength (readSlot s ss) ≤ widthBits w →
    ∃ t u, exec (decuOf w ss) s = .next t ∧ exec (decsOf w ss) s = .next u ∧
      t.res.toNat = pattern (readSlot s ss) ∧
      u.res.toInt = if pattern (readSlot s ss) < 2 ^ (widthBits w - 1) then (pattern (readSlot s ss) : Int)
        else (pattern (readSlot s ss) : Int) - 2 ^ widthBits w

/-- A slot shorter than W is never sign-extended from its own top bit: DECS gives its pattern, a non-negative number, as DECU
does (R154). -/
def Obligations.ShortSlotIsNotSignExtended : Prop :=
  ∀ (w : Width) (ss : SlotNum) (s : State), bitLength (readSlot s ss) < widthBits w →
    ∃ t, exec (decsOf w ss) s = .next t ∧ Returned (BitVec.ofNat 64 (pattern (readSlot s ss))) s t ∧
      t.res.toInt = pattern (readSlot s ss) ∧ exec (decuOf w ss) s = .next t

/-- DECU and DECS of one width and slot give the same `RES` exactly when `W = 64` or bit `W-1` of the pattern is 0; where
they differ, DECS has ones in all of `RES[63:W]` (R157). -/
def Obligations.DecuAndDecsAgree : Prop :=
  ∀ (w : Width) (ss : SlotNum) (s t u : State), bitLength (readSlot s ss) ≤ widthBits w →
    exec (decuOf w ss) s = .next t → exec (decsOf w ss) s = .next u →
    (t.res = u.res ↔ w = .w64 ∨ (pattern (readSlot s ss)).testBit (widthBits w - 1) = false) ∧
    (t.res ≠ u.res → ∀ p, widthBits w ≤ p → p < 64 → u.res.getLsbD p = true)

/-- Round trip of integers, as the machine runs: CAPV of a W-bit value, then DECU gives it zero-extended and DECS gives it
sign-extended (R160). -/
def Obligations.IntegerRoundTrip : Prop :=
  ∀ (s : State) (k : SlotNum) (w : Width) (v x : Dword) (d d' : List Host.Cell) (signed : Bool) (rest : List HostEvent),
    s.rst = false → k.toNat < s.cfg.nseq →
    s.host = .command (encode (capvOf w k)) v d ::
      .command (encode (if signed then decsOf w k else decuOf w k)) x d' :: rest →
    ∃ t u, step s = .next t ∧ t.err = 0 ∧ step t = .next u ∧ u.err = 0 ∧ u.host = rest ∧
      u.res = if signed then (v.setWidth (widthBits w)).signExtend 64 else (v.setWidth (widthBits w)).setWidth 64

/-! ### Float decoding -/

/-- The five classes and their `CLS` codes, from `(E, M)` alone; every `(E, M)` of the format is in exactly the class its row
says (R182). -/
def Obligations.ClassificationTable : Prop :=
  ∀ (F : FloatFormat) (E M : Nat), E ≤ exponentMax F →
    (classify F E M = .zero ↔ E = 0 ∧ M = 0) ∧
    (classify F E M = .subnormal ↔ E = 0 ∧ M ≠ 0) ∧
    (classify F E M = .normal ↔ 0 < E ∧ E < exponentMax F) ∧
    (classify F E M = .infinity ↔ E = exponentMax F ∧ M = 0) ∧
    (classify F E M = .nan ↔ E = exponentMax F ∧ M ≠ 0) ∧
    [FloatClass.zero, .subnormal, .normal, .infinity, .nan].map classCode = [1, 2, 3, 4, 5]

/-- Field extraction from a slot of the format's width: `s = P[N-1]`, `E = P[N-2:p]`, `M = P[p-1:0]` of its pattern, at the
bit positions of the format (R180, R181). -/
def Obligations.FieldsArePatternSlices : Prop :=
  ∀ q : BitSeq,
    (bitLength q = 32 → floatFields .binary32 q =
      ⟨pattern q / 2 ^ 31, pattern q / 2 ^ 23 % 2 ^ 8, pattern q % 2 ^ 23⟩) ∧
    (bitLength q = 64 → floatFields .binary64 q =
      ⟨pattern q / 2 ^ 63, pattern q / 2 ^ 52 % 2 ^ 11, pattern q % 2 ^ 52⟩)

/-- DECF32 of a 32-bit slot with pattern `P`: `CLS` is the class of `E = P[30:23]`, `M = P[22:0]`; `RES` is `P` itself unless
it is a NaN, and then the canonical NaN of the parameters; nothing else changes but `ERR` (R190, R192). -/
def Obligations.Decf32Result : Prop :=
  ∀ (ss : SlotNum) (s : State), bitLength (readSlot s ss) = 32 →
    let P := pattern (readSlot s ss)
    let E := P / 2 ^ 23 % 2 ^ 8
    let M := P % 2 ^ 23
    (¬ (E = 255 ∧ M ≠ 0) →
      ∃ t, exec (.decf32 ss) s = .next t ∧ ReturnedClass (BitVec.ofNat 64 P) (classify .binary32 E M) s t ∧
        t.res.toNat = P) ∧
    (E = 255 → M ≠ 0 →
      ∃ t, exec (.decf32 ss) s = .next t ∧
        ReturnedClass (BitVec.ofNat 64
          (nanSignBit s.cfg (P / 2 ^ 31) * 2 ^ 31 + 255 * 2 ^ 23 + s.cfg.nan32Frac.toNat)) .nan s t)

/-- DECF64 of a 64-bit slot with pattern `P`: as DECF32 with `E = P[62:52]`, `M = P[51:0]` (R200, R202). -/
def Obligations.Decf64Result : Prop :=
  ∀ (ss : SlotNum) (s : State), bitLength (readSlot s ss) = 64 →
    let P := pattern (readSlot s ss)
    let E := P / 2 ^ 52 % 2 ^ 11
    let M := P % 2 ^ 52
    (¬ (E = 2047 ∧ M ≠ 0) →
      ∃ t, exec (.decf64 ss) s = .next t ∧ ReturnedClass (BitVec.ofNat 64 P) (classify .binary64 E M) s t ∧
        t.res.toNat = P) ∧
    (E = 2047 → M ≠ 0 →
      ∃ t, exec (.decf64 ss) s = .next t ∧
        ReturnedClass (BitVec.ofNat 64
          (nanSignBit s.cfg (P / 2 ^ 63) * 2 ^ 63 + 2047 * 2 ^ 52 + s.cfg.nan64Frac.toNat)) .nan s t)

/-- A slot that is not exactly as wide as the format fails with WrongWidth, and `RES` and `CLS` keep their values (R191,
R201). -/
def Obligations.FloatWrongWidth : Prop :=
  ∀ (ss : SlotNum) (s : State),
    (bitLength (readSlot s ss) ≠ 32 → ∃ t, exec (.decf32 ss) s = .next t ∧ FailedWith .wrongWidth s t) ∧
    (bitLength (readSlot s ss) ≠ 64 → ∃ t, exec (.decf64 ss) s = .next t ∧ FailedWith .wrongWidth s t)

/-- Every NaN input gives a NaN of the format and class NaN whatever the legal parameters, and the result does not depend on
the payload: two NaN inputs of the same sign give the same `RES` (R188). -/
def Obligations.NanIsCanonical : Prop :=
  ∀ (F : FloatFormat) (ss : SlotNum) (s s' : State), s.cfg.Legal → s'.cfg = s.cfg →
    bitLength (readSlot s ss) = formatWidth F → bitLength (readSlot s' ss) = formatWidth F →
    classify F (floatFields F (readSlot s ss)).E (floatFields F (readSlot s ss)).M = .nan →
    classify F (floatFields F (readSlot s' ss)).E (floatFields F (readSlot s' ss)).M = .nan →
    (floatFields F (readSlot s ss)).sign = (floatFields F (readSlot s' ss)).sign →
    ∃ t t', exec (decfOf F ss) s = .next t ∧ exec (decfOf F ss) s' = .next t' ∧ t.res = t'.res ∧
      IsNanPattern F t.res ∧ t.cls = 5 ∧ t'.cls = 5

/-- The source's sum over the mantissa bits is the exact closed form, for every field value of the format (R183). -/
def Obligations.SeriesIsClosedForm : Prop :=
  ∀ (F : FloatFormat) (f : FloatFields), f.M < 2 ^ mantissaWidth F →
    seriesMagnitude F f = (floatValue F { f with sign := 0 }).toRat

/-- The value of R184 tells apart all non-NaN patterns of a format, signed zeros included: the pattern a decoder returns is
the only one of its format that has the value, so nothing is rounded (R184, R185, R186). -/
def Obligations.ValueDeterminesPattern : Prop :=
  ∀ (F : FloatFormat) (q q' : BitSeq), bitLength q = formatWidth F → bitLength q' = formatWidth F →
    floatValue F (floatFields F q) ≠ .nan →
    (floatValue F (floatFields F q)).same (floatValue F (floatFields F q')) → pattern q = pattern q'

/-- The pattern a float decoder returns has the value of the slot's own fields, NaN included (R184, R186). -/
def Obligations.DecoderReturnsTheValue : Prop :=
  ∀ (F : FloatFormat) (ss : SlotNum) (s : State), s.cfg.Legal → bitLength (readSlot s ss) = formatWidth F →
    ∃ t, exec (decfOf F ss) s = .next t ∧
      floatValue F (floatFields F (valueBytes (formatValueWidth F) t.res)) = floatValue F (floatFields F (readSlot s ss))

/-- Round trip of binary32, as the machine runs: CAPV32 of a pattern `f`, then DECF32 gives `RES[31:0] = f` bit for bit, and
for a NaN pattern the canonical NaN (R195). -/
def Obligations.Float32RoundTrip : Prop :=
  ∀ (s : State) (k : SlotNum) (v x : Dword) (d d' : List Host.Cell) (rest : List HostEvent),
    s.rst = false → k.toNat < s.cfg.nseq →
    s.host = .command (encode (.capv32 k)) v d :: .command (encode (.decf32 k)) x d' :: rest →
    let f := v.setWidth 32
    let isNan := (f.extractLsb' 23 8 = 255#8 ∧ f.extractLsb' 0 23 ≠ 0#23)
    ∃ t u, step s = .next t ∧ t.err = 0 ∧ step t = .next u ∧ u.err = 0 ∧ u.host = rest ∧
      (¬ isNan → u.res = f.setWidth 64) ∧
      (isNan → u.cls = 5 ∧ u.res = BitVec.ofNat 64
        (nanSignBit s.cfg (f.extractLsb' 31 1).toNat * 2 ^ 31 + 255 * 2 ^ 23 + s.cfg.nan32Frac.toNat))

/-- Round trip of binary64, as the machine runs: CAPV64 of a pattern that is not a NaN, then DECF64 gives it back bit for bit
(R203). -/
def Obligations.Float64RoundTrip : Prop :=
  ∀ (s : State) (k : SlotNum) (v x : Dword) (d d' : List Host.Cell) (rest : List HostEvent),
    s.rst = false → k.toNat < s.cfg.nseq →
    s.host = .command (encode (.capv64 k)) v d :: .command (encode (.decf64 k)) x d' :: rest →
    ¬ (v.extractLsb' 52 11 = 2047#11 ∧ v.extractLsb' 0 52 ≠ 0#52) →
    ∃ t u, step s = .next t ∧ t.err = 0 ∧ step t = .next u ∧ u.err = 0 ∧ u.res = v ∧ u.host = rest

/-! ### All commands -/

/-- Errors are precise and never hidden: a command that completes either has `ERR = 0`, or one of the six codes with every
other piece of state as before and no memory read made (R220, R224, R225). -/
def Obligations.ErrorsArePrecise : Prop :=
  ∀ (i : Instr) (s t : State), exec i s = .next t → t.err = 0 ∨ ∃ e, errorCode e ≠ 0 ∧ FailedWith e s t

/-- Only CAPM, CAPV and COPY write a slot, each only its destination (R34, R35). -/
def Obligations.OnlyCapturesWriteSlots : Prop :=
  ∀ (i : Instr) (s t : State), exec i s = .next t → ∀ k : SlotNum, i.dest? ≠ some k → readSlot t k = readSlot s k

/-- `RES` is left alone by CAPM, CAPV and COPY, and `CLS` by every command but the two float decoders (R37, R39). -/
def Obligations.WhoWritesResAndCls : Prop :=
  ∀ (i : Instr) (s t : State), exec i s = .next t →
    (i.dest? ≠ none → t.res = s.res) ∧ ((∀ k, i ≠ .decf32 k ∧ i ≠ .decf64 k) → t.cls = s.cls)

/-- No command writes host memory or any other thing outside the block, and only CAPM reads memory (R46, R60, R75). -/
def Obligations.NoCommandWritesMemory : Prop :=
  ∀ (i : Instr) (s t : State), exec i s = .next t →
    SameOutside s t ∧ ((∀ k n, i ≠ .capm k n) → NoReads s t)

/-- Only a CAPM can fail to complete; every other command answers a next state at every state (R226, R227, R258). -/
def Obligations.OnlyCapmCanFailToComplete : Prop :=
  ∀ (i : Instr) (s : State), (∀ k n, i ≠ .capm k n) → ∃ t, exec i s = .next t

/-- No command reads `ERR`, `CLS` or `RES`: from two states that differ only there, a command completes in both or in
neither, and what it does is the same; a register it does not write keeps its own value (R41). -/
def Obligations.OutputsAreNeverRead : Prop :=
  ∀ (i : Instr) (s : State) (r : Dword) (e c : BitVec 3),
    let s' : State := { s with res := r, err := e, cls := c }
    (∀ f, exec i s = .fault f ↔ exec i s' = .fault f) ∧
    (∀ f, exec i s = .refused f ↔ exec i s' = .refused f) ∧
    (∀ t, exec i s = .next t → ∃ t', exec i s' = .next t' ∧ t'.err = t.err ∧ SameSlots t t' ∧ SameOutside t t' ∧
      NoReads t t' ∧ ((t.res = s.res ∧ t'.res = r) ∨ t'.res = t.res) ∧ ((t.cls = s.cls ∧ t'.cls = c) ∨ t'.cls = t.cls))

/-- `OPA` is ignored by every command but CAPM and CAPV, and CAPV ignores `OPA[63:W]` (R86, R116). -/
def Obligations.UnusedOperandIsIgnored : Prop :=
  (∀ (i : Instr) (s t : State) (v : Dword), (∀ k n, i ≠ .capm k n) → (∀ w k, i ≠ capvOf w k) →
    exec i s = .next t → exec i { s with opa := v } = .next { t with opa := v }) ∧
  (∀ (w : Width) (k : SlotNum) (s t : State) (v : Dword), v.setWidth (widthBits w) = s.opa.setWidth (widthBits w) →
    exec (capvOf w k) s = .next t → exec (capvOf w k) { s with opa := v } = .next { t with opa := v })

/-- An integer or float decode is a function of its source slot and the build parameters alone: two states that agree there
get the same `ERR`, and the same `RES` and, for a float, `CLS` when it succeeds (R159, R205, R223). -/
def Obligations.DecodesDependOnSourceAlone : Prop :=
  ∀ (w : Width) (F : FloatFormat) (ss : SlotNum) (i : Instr) (s s' t t' : State),
    i ∈ [decuOf w ss, decsOf w ss, decfOf F ss] → readSlot s ss = readSlot s' ss → s.cfg = s'.cfg →
    exec i s = .next t → exec i s' = .next t' →
    t.err = t'.err ∧ (t.err = 0 → t.res = t'.res ∧ (i = decfOf F ss → t.cls = t'.cls))

/-! ### The invariant -/

/-- The invariant holds right after reset. -/
def Obligations.ResetMeetsTheInvariant : Prop := State.reset.Inv

/-- Every step keeps the invariant: legal parameters, slots within `MAXB`, absent slots empty, `ERR ≠ 7`, `CLS` never 6 or 7,
memory in canonical form (R11, R33, R39, R221; log 5). -/
def Obligations.StepKeepsTheInvariant : Prop :=
  ∀ s t : State, s.Inv → step s = .next t → t.Inv

/-- No step changes a build parameter or which addresses of host memory are admitted (R42, R64; log 5). -/
def Obligations.StepKeepsParametersAndAdmission : Prop :=
  ∀ s t : State, step s = .next t →
    t.cfg = s.cfg ∧ t.devices = s.devices ∧ ∀ a, (memLookup t.mem a).isSome = (memLookup s.mem a).isSome
end

