-- ==== Sys2Proof/Laws/Decode.lean ====
section
/-! SUPPORT. The five fields and the word are two views of the same 32 bits (30_encoding.md R80), so decoding can be argued
field by field. -/

namespace Sys2Proof

/-- The value of a word from its fields (R80). -/
theorem CmdFields.toNat_word (f : CmdFields) :
    f.word.toNat = f.opc.toNat + 2 ^ 8 * (f.sd.toNat + 2 ^ 2 * (f.ss.toNat + 2 ^ 2 * (f.fn.toNat + 2 ^ 4 * f.imm.toNat))) := by
  have h1 := f.opc.isLt
  have h2 := f.sd.isLt
  have h3 := f.ss.isLt
  have h4 := f.fn.isLt
  simp only [CmdFields.word, BitVec.toNat_append]
  rw [← Nat.shiftLeft_add_eq_or_of_lt h4, ← Nat.shiftLeft_add_eq_or_of_lt h3, ← Nat.shiftLeft_add_eq_or_of_lt h2,
    ← Nat.shiftLeft_add_eq_or_of_lt h1]
  simp only [Nat.shiftLeft_eq]
  ring

/-- The fields of the word made of fields are those fields. -/
@[simp] theorem CmdFields.ofWord_word (f : CmdFields) : CmdFields.ofWord f.word = f := by
  have h1 := f.opc.isLt
  have h2 := f.sd.isLt
  have h3 := f.ss.isLt
  have h4 := f.fn.isLt
  have h5 := f.imm.isLt
  have hw := f.toNat_word
  cases f with
  | mk opc sd ss fn imm =>
    simp only [CmdFields.ofWord, CmdFields.mk.injEq]
    refine ⟨?_, ?_, ?_, ?_, ?_⟩ <;>
      (apply BitVec.eq_of_toNat_eq
       simp only [BitVec.extractLsb'_toNat, Nat.shiftRight_eq_div_pow, hw]
       simp only at h1 h2 h3 h4 h5
       omega)

/-- The word made of a word's fields is that word. -/
@[simp] theorem CmdFields.word_ofWord (w : Word) : (CmdFields.ofWord w).word = w := by
  apply BitVec.eq_of_toNat_eq
  have hw := w.isLt
  rw [CmdFields.toNat_word]
  simp only [CmdFields.ofWord, BitVec.extractLsb'_toNat, Nat.shiftRight_eq_div_pow]
  omega

/-- What decoding depends on: the row of the opcode map, then the slots the block has (R88). -/
theorem decode_eq_instr_iff (c : Config) (w : Word) (i : Instr) :
    decode c w = .instr i ↔ decodeFields (CmdFields.ofWord w) = .instr i ∧ i.wf c = true := by
  unfold decode checkSlots
  cases decodeFields (CmdFields.ofWord w) with
  | illegal why => simp
  | instr j =>
    simp only [Decoded.instr.injEq]
    constructor
    · intro h
      split at h
      · cases h; exact ⟨rfl, by assumption⟩
      · cases h
    · rintro ⟨rfl, hw⟩
      simp [hw]

end Sys2Proof
end

