-- ==== Sys2Proof/Laws/State.lean ====
section
/-! SUPPORT. What each update of the state does to each field, and to a slot read, so that no later proof unfolds a record
update. -/

namespace Sys2Proof.Machine

/-! ### `writeSlot` (R34) -/

@[simp] theorem writeSlot_cfg (k : SlotNum) (q : BitSeq) (s : State) : (writeSlot k q s).cfg = s.cfg := rfl
@[simp] theorem writeSlot_slots (k : SlotNum) (q : BitSeq) (s : State) : (writeSlot k q s).slots = s.slots.set k.toNat q k.isLt := rfl
@[simp] theorem writeSlot_res (k : SlotNum) (q : BitSeq) (s : State) : (writeSlot k q s).res = s.res := rfl
@[simp] theorem writeSlot_err (k : SlotNum) (q : BitSeq) (s : State) : (writeSlot k q s).err = s.err := rfl
@[simp] theorem writeSlot_cls (k : SlotNum) (q : BitSeq) (s : State) : (writeSlot k q s).cls = s.cls := rfl
@[simp] theorem writeSlot_rst (k : SlotNum) (q : BitSeq) (s : State) : (writeSlot k q s).rst = s.rst := rfl
@[simp] theorem writeSlot_cmd (k : SlotNum) (q : BitSeq) (s : State) : (writeSlot k q s).cmd = s.cmd := rfl
@[simp] theorem writeSlot_opa (k : SlotNum) (q : BitSeq) (s : State) : (writeSlot k q s).opa = s.opa := rfl
@[simp] theorem writeSlot_mem (k : SlotNum) (q : BitSeq) (s : State) : (writeSlot k q s).mem = s.mem := rfl
@[simp] theorem writeSlot_devices (k : SlotNum) (q : BitSeq) (s : State) : (writeSlot k q s).devices = s.devices := rfl
@[simp] theorem writeSlot_during (k : SlotNum) (q : BitSeq) (s : State) : (writeSlot k q s).during = s.during := rfl
@[simp] theorem writeSlot_reads (k : SlotNum) (q : BitSeq) (s : State) : (writeSlot k q s).reads = s.reads := rfl
@[simp] theorem writeSlot_draws (k : SlotNum) (q : BitSeq) (s : State) : (writeSlot k q s).draws = s.draws := rfl
@[simp] theorem writeSlot_host (k : SlotNum) (q : BitSeq) (s : State) : (writeSlot k q s).host = s.host := rfl

/-! ### `writeRes` (R37) -/

@[simp] theorem writeRes_cfg (v : Dword) (s : State) : (writeRes v s).cfg = s.cfg := rfl
@[simp] theorem writeRes_slots (v : Dword) (s : State) : (writeRes v s).slots = s.slots := rfl
@[simp] theorem writeRes_res (v : Dword) (s : State) : (writeRes v s).res = v := rfl
@[simp] theorem writeRes_err (v : Dword) (s : State) : (writeRes v s).err = s.err := rfl
@[simp] theorem writeRes_cls (v : Dword) (s : State) : (writeRes v s).cls = s.cls := rfl
@[simp] theorem writeRes_rst (v : Dword) (s : State) : (writeRes v s).rst = s.rst := rfl
@[simp] theorem writeRes_cmd (v : Dword) (s : State) : (writeRes v s).cmd = s.cmd := rfl
@[simp] theorem writeRes_opa (v : Dword) (s : State) : (writeRes v s).opa = s.opa := rfl
@[simp] theorem writeRes_mem (v : Dword) (s : State) : (writeRes v s).mem = s.mem := rfl
@[simp] theorem writeRes_devices (v : Dword) (s : State) : (writeRes v s).devices = s.devices := rfl
@[simp] theorem writeRes_during (v : Dword) (s : State) : (writeRes v s).during = s.during := rfl
@[simp] theorem writeRes_reads (v : Dword) (s : State) : (writeRes v s).reads = s.reads := rfl
@[simp] theorem writeRes_draws (v : Dword) (s : State) : (writeRes v s).draws = s.draws := rfl
@[simp] theorem writeRes_host (v : Dword) (s : State) : (writeRes v s).host = s.host := rfl

@[simp] theorem readSlot_writeRes (v : Dword) (s : State) (j : SlotNum) : readSlot (writeRes v s) j = readSlot s j := rfl

/-! ### `writeErr` (R38) -/

@[simp] theorem writeErr_cfg (e : BitVec 3) (s : State) : (writeErr e s).cfg = s.cfg := rfl
@[simp] theorem writeErr_slots (e : BitVec 3) (s : State) : (writeErr e s).slots = s.slots := rfl
@[simp] theorem writeErr_res (e : BitVec 3) (s : State) : (writeErr e s).res = s.res := rfl
@[simp] theorem writeErr_err (e : BitVec 3) (s : State) : (writeErr e s).err = e := rfl
@[simp] theorem writeErr_cls (e : BitVec 3) (s : State) : (writeErr e s).cls = s.cls := rfl
@[simp] theorem writeErr_rst (e : BitVec 3) (s : State) : (writeErr e s).rst = s.rst := rfl
@[simp] theorem writeErr_cmd (e : BitVec 3) (s : State) : (writeErr e s).cmd = s.cmd := rfl
@[simp] theorem writeErr_opa (e : BitVec 3) (s : State) : (writeErr e s).opa = s.opa := rfl
@[simp] theorem writeErr_mem (e : BitVec 3) (s : State) : (writeErr e s).mem = s.mem := rfl
@[simp] theorem writeErr_devices (e : BitVec 3) (s : State) : (writeErr e s).devices = s.devices := rfl
@[simp] theorem writeErr_during (e : BitVec 3) (s : State) : (writeErr e s).during = s.during := rfl
@[simp] theorem writeErr_reads (e : BitVec 3) (s : State) : (writeErr e s).reads = s.reads := rfl
@[simp] theorem writeErr_draws (e : BitVec 3) (s : State) : (writeErr e s).draws = s.draws := rfl
@[simp] theorem writeErr_host (e : BitVec 3) (s : State) : (writeErr e s).host = s.host := rfl

@[simp] theorem readSlot_writeErr (e : BitVec 3) (s : State) (j : SlotNum) : readSlot (writeErr e s) j = readSlot s j := rfl

/-! ### `writeCls` (R39) -/

@[simp] theorem writeCls_cfg (c : FloatClass) (s : State) : (writeCls c s).cfg = s.cfg := rfl
@[simp] theorem writeCls_slots (c : FloatClass) (s : State) : (writeCls c s).slots = s.slots := rfl
@[simp] theorem writeCls_res (c : FloatClass) (s : State) : (writeCls c s).res = s.res := rfl
@[simp] theorem writeCls_err (c : FloatClass) (s : State) : (writeCls c s).err = s.err := rfl
@[simp] theorem writeCls_cls (c : FloatClass) (s : State) : (writeCls c s).cls = classCode c := rfl
@[simp] theorem writeCls_rst (c : FloatClass) (s : State) : (writeCls c s).rst = s.rst := rfl
@[simp] theorem writeCls_cmd (c : FloatClass) (s : State) : (writeCls c s).cmd = s.cmd := rfl
@[simp] theorem writeCls_opa (c : FloatClass) (s : State) : (writeCls c s).opa = s.opa := rfl
@[simp] theorem writeCls_mem (c : FloatClass) (s : State) : (writeCls c s).mem = s.mem := rfl
@[simp] theorem writeCls_devices (c : FloatClass) (s : State) : (writeCls c s).devices = s.devices := rfl
@[simp] theorem writeCls_during (c : FloatClass) (s : State) : (writeCls c s).during = s.during := rfl
@[simp] theorem writeCls_reads (c : FloatClass) (s : State) : (writeCls c s).reads = s.reads := rfl
@[simp] theorem writeCls_draws (c : FloatClass) (s : State) : (writeCls c s).draws = s.draws := rfl
@[simp] theorem writeCls_host (c : FloatClass) (s : State) : (writeCls c s).host = s.host := rfl

@[simp] theorem readSlot_writeCls (c : FloatClass) (s : State) (j : SlotNum) : readSlot (writeCls c s) j = readSlot s j := rfl

/-! ### `noteRead` (R46) -/

@[simp] theorem noteRead_cfg (a : Nat) (s : State) : (noteRead a s).cfg = s.cfg := rfl
@[simp] theorem noteRead_slots (a : Nat) (s : State) : (noteRead a s).slots = s.slots := rfl
@[simp] theorem noteRead_res (a : Nat) (s : State) : (noteRead a s).res = s.res := rfl
@[simp] theorem noteRead_err (a : Nat) (s : State) : (noteRead a s).err = s.err := rfl
@[simp] theorem noteRead_cls (a : Nat) (s : State) : (noteRead a s).cls = s.cls := rfl
@[simp] theorem noteRead_rst (a : Nat) (s : State) : (noteRead a s).rst = s.rst := rfl
@[simp] theorem noteRead_cmd (a : Nat) (s : State) : (noteRead a s).cmd = s.cmd := rfl
@[simp] theorem noteRead_opa (a : Nat) (s : State) : (noteRead a s).opa = s.opa := rfl
@[simp] theorem noteRead_mem (a : Nat) (s : State) : (noteRead a s).mem = s.mem := rfl
@[simp] theorem noteRead_devices (a : Nat) (s : State) : (noteRead a s).devices = s.devices := rfl
@[simp] theorem noteRead_during (a : Nat) (s : State) : (noteRead a s).during = s.during := rfl
@[simp] theorem noteRead_reads (a : Nat) (s : State) : (noteRead a s).reads = s.reads ++ [a] := rfl
@[simp] theorem noteRead_draws (a : Nat) (s : State) : (noteRead a s).draws = s.draws + 1 := rfl
@[simp] theorem noteRead_host (a : Nat) (s : State) : (noteRead a s).host = s.host := rfl

@[simp] theorem readSlot_noteRead (a : Nat) (s : State) (j : SlotNum) : readSlot (noteRead a s) j = readSlot s j := rfl

/-! ### `hostStore` (R65) -/

@[simp] theorem hostStore_cfg (a : Nat) (w : Width) (v : Dword) (s : State) : (hostStore a w v s).cfg = s.cfg := rfl
@[simp] theorem hostStore_slots (a : Nat) (w : Width) (v : Dword) (s : State) : (hostStore a w v s).slots = s.slots := rfl
@[simp] theorem hostStore_res (a : Nat) (w : Width) (v : Dword) (s : State) : (hostStore a w v s).res = s.res := rfl
@[simp] theorem hostStore_err (a : Nat) (w : Width) (v : Dword) (s : State) : (hostStore a w v s).err = s.err := rfl
@[simp] theorem hostStore_cls (a : Nat) (w : Width) (v : Dword) (s : State) : (hostStore a w v s).cls = s.cls := rfl
@[simp] theorem hostStore_rst (a : Nat) (w : Width) (v : Dword) (s : State) : (hostStore a w v s).rst = s.rst := rfl
@[simp] theorem hostStore_cmd (a : Nat) (w : Width) (v : Dword) (s : State) : (hostStore a w v s).cmd = s.cmd := rfl
@[simp] theorem hostStore_opa (a : Nat) (w : Width) (v : Dword) (s : State) : (hostStore a w v s).opa = s.opa := rfl
@[simp] theorem hostStore_mem (a : Nat) (w : Width) (v : Dword) (s : State) : (hostStore a w v s).mem = memWriteBytes s.mem a (layoutBytes s.cfg.hostOrder w v) := rfl
@[simp] theorem hostStore_devices (a : Nat) (w : Width) (v : Dword) (s : State) : (hostStore a w v s).devices = s.devices := rfl
@[simp] theorem hostStore_during (a : Nat) (w : Width) (v : Dword) (s : State) : (hostStore a w v s).during = s.during := rfl
@[simp] theorem hostStore_reads (a : Nat) (w : Width) (v : Dword) (s : State) : (hostStore a w v s).reads = s.reads := rfl
@[simp] theorem hostStore_draws (a : Nat) (w : Width) (v : Dword) (s : State) : (hostStore a w v s).draws = s.draws := rfl
@[simp] theorem hostStore_host (a : Nat) (w : Width) (v : Dword) (s : State) : (hostStore a w v s).host = s.host := rfl

@[simp] theorem readSlot_hostStore (a : Nat) (w : Width) (v : Dword) (s : State) (j : SlotNum) : readSlot (hostStore a w v s) j = readSlot s j := rfl

/-! ### `resetBlock` (R44) -/

@[simp] theorem resetBlock_cfg (s : State) : (resetBlock s).cfg = s.cfg := rfl
@[simp] theorem resetBlock_slots (s : State) : (resetBlock s).slots = Vector.replicate 4 [] := rfl
@[simp] theorem resetBlock_res (s : State) : (resetBlock s).res = 0 := rfl
@[simp] theorem resetBlock_err (s : State) : (resetBlock s).err = 0 := rfl
@[simp] theorem resetBlock_cls (s : State) : (resetBlock s).cls = 0 := rfl
@[simp] theorem resetBlock_rst (s : State) : (resetBlock s).rst = s.rst := rfl
@[simp] theorem resetBlock_cmd (s : State) : (resetBlock s).cmd = s.cmd := rfl
@[simp] theorem resetBlock_opa (s : State) : (resetBlock s).opa = s.opa := rfl
@[simp] theorem resetBlock_mem (s : State) : (resetBlock s).mem = s.mem := rfl
@[simp] theorem resetBlock_devices (s : State) : (resetBlock s).devices = s.devices := rfl
@[simp] theorem resetBlock_during (s : State) : (resetBlock s).during = s.during := rfl
@[simp] theorem resetBlock_reads (s : State) : (resetBlock s).reads = [] := rfl
@[simp] theorem resetBlock_draws (s : State) : (resetBlock s).draws = s.draws := rfl
@[simp] theorem resetBlock_host (s : State) : (resetBlock s).host = s.host := rfl

/-! ### `acceptCommand` (R256) -/

@[simp] theorem acceptCommand_cfg (c : Word) (o : Dword) (d : List Host.Cell) (h : List HostEvent) (s : State) : (acceptCommand c o d h s).cfg = s.cfg := rfl
@[simp] theorem acceptCommand_slots (c : Word) (o : Dword) (d : List Host.Cell) (h : List HostEvent) (s : State) : (acceptCommand c o d h s).slots = s.slots := rfl
@[simp] theorem acceptCommand_res (c : Word) (o : Dword) (d : List Host.Cell) (h : List HostEvent) (s : State) : (acceptCommand c o d h s).res = s.res := rfl
@[simp] theorem acceptCommand_err (c : Word) (o : Dword) (d : List Host.Cell) (h : List HostEvent) (s : State) : (acceptCommand c o d h s).err = s.err := rfl
@[simp] theorem acceptCommand_cls (c : Word) (o : Dword) (d : List Host.Cell) (h : List HostEvent) (s : State) : (acceptCommand c o d h s).cls = s.cls := rfl
@[simp] theorem acceptCommand_rst (c : Word) (o : Dword) (d : List Host.Cell) (h : List HostEvent) (s : State) : (acceptCommand c o d h s).rst = s.rst := rfl
@[simp] theorem acceptCommand_cmd (c : Word) (o : Dword) (d : List Host.Cell) (h : List HostEvent) (s : State) : (acceptCommand c o d h s).cmd = c := rfl
@[simp] theorem acceptCommand_opa (c : Word) (o : Dword) (d : List Host.Cell) (h : List HostEvent) (s : State) : (acceptCommand c o d h s).opa = o := rfl
@[simp] theorem acceptCommand_mem (c : Word) (o : Dword) (d : List Host.Cell) (h : List HostEvent) (s : State) : (acceptCommand c o d h s).mem = s.mem := rfl
@[simp] theorem acceptCommand_devices (c : Word) (o : Dword) (d : List Host.Cell) (h : List HostEvent) (s : State) : (acceptCommand c o d h s).devices = s.devices := rfl
@[simp] theorem acceptCommand_during (c : Word) (o : Dword) (d : List Host.Cell) (h : List HostEvent) (s : State) : (acceptCommand c o d h s).during = d := rfl
@[simp] theorem acceptCommand_reads (c : Word) (o : Dword) (d : List Host.Cell) (h : List HostEvent) (s : State) : (acceptCommand c o d h s).reads = [] := rfl
@[simp] theorem acceptCommand_draws (c : Word) (o : Dword) (d : List Host.Cell) (h : List HostEvent) (s : State) : (acceptCommand c o d h s).draws = s.draws := rfl
@[simp] theorem acceptCommand_host (c : Word) (o : Dword) (d : List Host.Cell) (h : List HostEvent) (s : State) : (acceptCommand c o d h s).host = h := rfl

@[simp] theorem readSlot_acceptCommand (c : Word) (o : Dword) (d : List Host.Cell) (h : List HostEvent) (s : State) (j : SlotNum) : readSlot (acceptCommand c o d h s) j = readSlot s j := rfl

/-! ### `finishCommand` (R73) -/

@[simp] theorem finishCommand_cfg (s : State) : (finishCommand s).cfg = s.cfg := rfl
@[simp] theorem finishCommand_slots (s : State) : (finishCommand s).slots = s.slots := rfl
@[simp] theorem finishCommand_res (s : State) : (finishCommand s).res = s.res := rfl
@[simp] theorem finishCommand_err (s : State) : (finishCommand s).err = s.err := rfl
@[simp] theorem finishCommand_cls (s : State) : (finishCommand s).cls = s.cls := rfl
@[simp] theorem finishCommand_rst (s : State) : (finishCommand s).rst = s.rst := rfl
@[simp] theorem finishCommand_cmd (s : State) : (finishCommand s).cmd = s.cmd := rfl
@[simp] theorem finishCommand_opa (s : State) : (finishCommand s).opa = s.opa := rfl
@[simp] theorem finishCommand_mem (s : State) : (finishCommand s).mem = memWriteCells s.mem s.during := rfl
@[simp] theorem finishCommand_devices (s : State) : (finishCommand s).devices = s.devices := rfl
@[simp] theorem finishCommand_during (s : State) : (finishCommand s).during = [] := rfl
@[simp] theorem finishCommand_reads (s : State) : (finishCommand s).reads = s.reads := rfl
@[simp] theorem finishCommand_draws (s : State) : (finishCommand s).draws = s.draws := rfl
@[simp] theorem finishCommand_host (s : State) : (finishCommand s).host = s.host := rfl

@[simp] theorem readSlot_finishCommand (s : State) (j : SlotNum) : readSlot (finishCommand s) j = readSlot s j := rfl

@[simp] theorem succeed_eq (s : State) : succeed s = writeErr 0#3 s := rfl

@[simp] theorem raise_eq (e : ErrorKind) (s : State) : raise e s = writeErr (errorCode e) s := rfl

/-- A slot just written reads as what was written (R34). -/
@[simp] theorem readSlot_writeSlot_same (k : SlotNum) (q : BitSeq) (s : State) :
    readSlot (writeSlot k q s) k = q := by
  simp [readSlot, writeSlot]

/-- No two slots share storage (R34). -/
theorem readSlot_writeSlot_ne {j k : SlotNum} (h : j ≠ k) (q : BitSeq) (s : State) :
    readSlot (writeSlot k q s) j = readSlot s j := by
  have hne : k.toNat ≠ j.toNat := fun e => h (BitVec.eq_of_toNat_eq e.symm)
  simp [readSlot, writeSlot, hne]

/-- A slot read after a slot write, both cases at once. -/
theorem readSlot_writeSlot (j k : SlotNum) (q : BitSeq) (s : State) :
    readSlot (writeSlot k q s) j = if j = k then q else readSlot s j := by
  by_cases h : j = k
  · subst h; simp
  · simp [h, readSlot_writeSlot_ne h]

/-- Every slot is empty after reset (R44). -/
@[simp] theorem readSlot_resetBlock (s : State) (k : SlotNum) : readSlot (resetBlock s) k = [] := by
  simp [readSlot]

@[simp] theorem readSlot_reset (k : SlotNum) : readSlot State.reset k = [] := by
  simp [readSlot, State.reset]

end Sys2Proof.Machine
end

