-- ==== Sys2Proof/Laws/Memory.lean ====
section
/-! SUPPORT. Host memory: a read after a write, and the canonical form that every memory operation keeps (log 5). -/

namespace Sys2Proof.Machine

/-- The addresses of a memory never change (log 5): only admitted bytes are rewritten. -/
theorem memWrite_addresses (a : Nat) (b : Byte) (m : Memory) : (memWrite a b m).map Prod.fst = m.map Prod.fst := by
  induction m with
  | nil => rfl
  | cons c cs ih =>
    simp only [memWrite, List.map_cons, List.cons.injEq] at ih ⊢
    exact ⟨by split <;> rfl, ih⟩

theorem memWriteBytes_addresses (bs : List Byte) (a : Nat) (m : Memory) :
    (memWriteBytes m a bs).map Prod.fst = m.map Prod.fst := by
  induction bs generalizing a m with
  | nil => rfl
  | cons b bs ih => simp [memWriteBytes, ih, memWrite_addresses]

theorem memWriteCells_addresses (ds : List Host.Cell) (m : Memory) :
    (memWriteCells m ds).map Prod.fst = m.map Prod.fst := by
  induction ds generalizing m with
  | nil => rfl
  | cons c cs ih => simp [memWriteCells, ih, memWrite_addresses]

/-- The canonical form is a matter of the addresses alone. -/
theorem Memory.risesFrom_of_addresses {m m' : Memory} (h : m'.map Prod.fst = m.map Prod.fst) (low : Nat) :
    Memory.risesFrom low m' = Memory.risesFrom low m := by
  induction m generalizing m' low with
  | nil => simp_all
  | cons c cs ih =>
    cases m' with
    | nil => simp at h
    | cons c' cs' =>
      simp only [List.map_cons, List.cons.injEq] at h
      simp [Memory.risesFrom, h.1, ih h.2]

theorem Memory.wf_of_addresses {m m' : Memory} (h : m'.map Prod.fst = m.map Prod.fst) :
    Memory.wf m' = Memory.wf m := by
  have key : ∀ n : Memory, (n.all fun c => decide (c.1 < 2 ^ 64)) = (n.map Prod.fst).all fun a => decide (a < 2 ^ 64) := by
    intro n; simp [List.all_map, Function.comp_def]
  simp only [Memory.wf, Memory.risesFrom_of_addresses h, key, h]

/-- Every memory operation keeps the canonical form. -/
@[simp] theorem memWrite_wf (a : Nat) (b : Byte) (m : Memory) : Memory.wf (memWrite a b m) = Memory.wf m :=
  Memory.wf_of_addresses (memWrite_addresses a b m)

@[simp] theorem memWriteBytes_wf (m : Memory) (a : Nat) (bs : List Byte) :
    Memory.wf (memWriteBytes m a bs) = Memory.wf m :=
  Memory.wf_of_addresses (memWriteBytes_addresses bs a m)

@[simp] theorem memWriteCells_wf (m : Memory) (ds : List Host.Cell) : Memory.wf (memWriteCells m ds) = Memory.wf m :=
  Memory.wf_of_addresses (memWriteCells_addresses ds m)

theorem reset_memory_wf : Memory.wf State.reset.mem = true := rfl

/-- The one law of a byte write: the written address, if admitted, reads as the byte, and every other as before. -/
theorem memLookup_memWrite (m : Memory) (a a' : Nat) (b : Byte) :
    memLookup (memWrite a b m) a' = if a' = a then (memLookup m a).map fun _ => b else memLookup m a' := by
  induction m with
  | nil => simp [memWrite, memLookup]
  | cons c cs ih =>
    simp only [memWrite, List.map_cons, memLookup] at ih ⊢
    by_cases hc : c.1 = a
    · by_cases ha : a' = a
      · simp [hc, ha]
      · have hn : ¬ a = a' := fun e => ha e.symm
        simp [hc, ha, hn, ih]
    · by_cases ha : a' = a
      · subst ha
        simp only [if_true] at ih
        simp [hc, ih]
      · simp [hc, ha, ih]

/-- No write changes which addresses are admitted (R64). -/
theorem memLookup_isSome_memWriteBytes (bs : List Byte) (m : Memory) (a a' : Nat) :
    (memLookup (memWriteBytes m a bs) a').isSome = (memLookup m a').isSome := by
  induction bs generalizing m a with
  | nil => rfl
  | cons b bs ih =>
    rw [memWriteBytes, ih, memLookup_memWrite]
    split <;> simp_all

/-- A run of bytes written at `a` reads back (R65). -/
theorem memLookup_memWriteBytes (bs : List Byte) (m : Memory) (a a' : Nat) :
    memLookup (memWriteBytes m a bs) a' =
      if h : a ≤ a' ∧ a' < a + bs.length then (memLookup m a').map fun _ => bs[a' - a]'(by omega)
      else memLookup m a' := by
  induction bs generalizing m a with
  | nil => simp [memWriteBytes]
  | cons b bs ih =>
    rw [memWriteBytes, ih]
    by_cases h : a' = a
    · subst h
      have h1 : ¬ (a' + 1 ≤ a' ∧ a' < a' + 1 + bs.length) := by omega
      simp [memLookup_memWrite]
    · by_cases h1 : a + 1 ≤ a' ∧ a' < a + 1 + bs.length
      · have h2 : a ≤ a' ∧ a' < a + (b :: bs).length := by simp; omega
        have h3 : a' - a = (a' - (a + 1)) + 1 := by omega
        rw [dif_pos h1, dif_pos h2]
        simp [memLookup_memWrite, h, h3]
      · have h2 : ¬ (a ≤ a' ∧ a' < a + (b :: bs).length) := by simp; omega
        rw [dif_neg h1, dif_neg h2]
        simp [memLookup_memWrite, h]

end Sys2Proof.Machine
end

