-- ==== Sys2Proof/Laws/Sequence.lean ====
section
/-! SUPPORT. A sequence as a number: bit reads, range reads and the integer accumulation are all views of `pattern` (00_scope.md
R19 to R22, 41_integer_decode.md R152), and so are the bytes of a captured value (40_sequence.md R117). -/

namespace Sys2Proof.Machine

@[simp] theorem pattern_nil : pattern [] = 0 := rfl

@[simp] theorem pattern_cons (b : Byte) (bs : BitSeq) : pattern (b :: bs) = b.toNat + 256 * pattern bs := rfl

theorem pattern_append (p q : BitSeq) : pattern (p ++ q) = pattern p + 256 ^ p.length * pattern q := by
  induction p with
  | nil => simp
  | cons b bs ih => simp [ih, pow_succ]; ring

/-- A pattern fits its bit length (R22). -/
theorem pattern_lt (q : BitSeq) : pattern q < 2 ^ bitLength q := by
  induction q with
  | nil => simp [bitLength]
  | cons b bs ih =>
    have hb := b.isLt
    have h : bitLength (b :: bs) = bitLength bs + 8 := by simp [bitLength]; ring
    rw [pattern_cons, h, pow_add]
    omega

/-- Bit `pos` of a sequence is bit `pos` of its pattern (R20, R22). -/
theorem getBit_toNat (q : BitSeq) (pos : Nat) : (getBit q pos).toNat = pattern q / 2 ^ pos % 2 := by
  induction q generalizing pos with
  | nil => simp [getBit]
  | cons b bs ih =>
    by_cases h : pos < 8
    · have h0 : pos / 8 = 0 := by omega
      have h1 : pos % 8 = pos := by omega
      have hp : 256 * pattern bs = 2 ^ pos * (2 * (2 ^ (7 - pos) * pattern bs)) := by
        have : 2 ^ pos * (2 * (2 ^ (7 - pos))) = 256 := by
          rw [← mul_assoc, ← pow_succ, ← pow_add]
          have : pos + 1 + (7 - pos) = 8 := by omega
          rw [this]; norm_num
        calc 256 * pattern bs = 2 ^ pos * (2 * (2 ^ (7 - pos))) * pattern bs := by rw [this]
          _ = _ := by ring
      rw [pattern_cons, hp, Nat.add_mul_div_left _ _ (by positivity), Nat.add_mul_mod_self_left]
      simp [getBit, h0, h1, Nat.shiftRight_eq_div_pow, Nat.and_one_is_mod]
    · have h0 : pos / 8 = (pos - 8) / 8 + 1 := by omega
      have h1 : pos % 8 = (pos - 8) % 8 := by omega
      have hg : getBit (b :: bs) pos = getBit bs (pos - 8) := by simp [getBit, h0, h1]
      have hb := b.isLt
      have h2 : 2 ^ pos = 256 * 2 ^ (pos - 8) := by
        have : pos = 8 + (pos - 8) := by omega
        conv_lhs => rw [this, pow_add]
        norm_num
      have hd : (b.toNat + 256 * pattern bs) / 256 = pattern bs := by omega
      rw [hg, ih, pattern_cons, h2, ← Nat.div_div_eq_div_mul, hd]

/-- The sum of R21 is a slice of the pattern. -/
theorem bitSum_eq (q : BitSeq) (lo n : Nat) : bitSum q lo n = pattern q / 2 ^ lo % 2 ^ n := by
  induction n with
  | zero => simp [bitSum, Nat.mod_one]
  | succ n ih =>
    rw [bitSum, ih, getBit_toNat, pow_add, ← Nat.div_div_eq_div_mul, pow_succ, Nat.mod_mul]
    ring

/-- `readUnsignedRange` is a slice of the pattern (R21, R22). -/
theorem readUnsignedRange_eq (q : BitSeq) (lo hi : Nat) :
    readUnsignedRange q lo hi = pattern q / 2 ^ lo % 2 ^ (hi + 1 - lo) := bitSum_eq q lo _

/-- The accumulation of R150 gives the pattern modulo `2^W` (R152). -/
theorem accumulate_toNat (W : Nat) (q : BitSeq) : (accumulate W q).toNat = pattern q % 2 ^ W := by
  induction q with
  | nil => simp [accumulate]
  | cons b bs ih =>
    have h : accumulate W (b :: bs) = accumulate W bs * 256 + b.setWidth W := rfl
    rw [h, pattern_cons, BitVec.toNat_add, BitVec.toNat_mul, ih, BitVec.toNat_setWidth]
    have h256 : (256 : BitVec W).toNat = 256 % 2 ^ W := by simp
    rw [h256]
    simp [Nat.add_mod, Nat.mul_mod, Nat.add_comm, Nat.mul_comm]

/-- A slot no longer than `W` bits is accumulated without wrapping (R152). -/
theorem accumulate_toNat_of_le {W : Nat} {q : BitSeq} (h : bitLength q ≤ W) : (accumulate W q).toNat = pattern q := by
  rw [accumulate_toNat, Nat.mod_eq_of_lt]
  exact lt_of_lt_of_le (pattern_lt q) (Nat.pow_le_pow_right (by norm_num) h)

@[simp] theorem length_valueBytes (w : Width) (v : Dword) : (valueBytes w v).length = widthBytes w := by
  simp [valueBytes]

@[simp] theorem length_layoutBytes (o : ByteOrder) (w : Width) (v : Dword) :
    (layoutBytes o w v).length = widthBytes w := by
  cases o <;> simp [layoutBytes]

theorem widthBits_eq (w : Width) : widthBits w = widthBytes w * 8 := by cases w <;> rfl

@[simp] theorem bitLength_valueBytes (w : Width) (v : Dword) : bitLength (valueBytes w v) = widthBits w := by
  simp [bitLength, widthBits_eq]

/-- The first `n` bytes of a value, in significance order, have its low `8n` bits as pattern. -/
theorem pattern_lowBytes (v : Dword) (n : Nat) :
    pattern ((List.range n).map fun i => v.extractLsb' (8 * i) 8) = v.toNat % 2 ^ (8 * n) := by
  induction n with
  | zero => simp [Nat.mod_one]
  | succ n ih =>
    rw [List.range_succ, List.map_append, pattern_append, ih]
    have h1 : (256 : Nat) ^ n = 2 ^ (8 * n) := by rw [pow_mul]; norm_num
    have h2 : 2 ^ (8 * (n + 1)) = 2 ^ (8 * n) * 2 ^ 8 := by rw [← pow_add]; rfl
    rw [h2, Nat.mod_mul]
    simp [h1, BitVec.extractLsb', Nat.shiftRight_eq_div_pow]

/-- CAPV's slot has the captured value as its pattern (R117). -/
theorem pattern_valueBytes (w : Width) (v : Dword) : pattern (valueBytes w v) = v.toNat % 2 ^ widthBits w := by
  rw [valueBytes, pattern_lowBytes, widthBits_eq, Nat.mul_comm]

end Sys2Proof.Machine
end

