-- ==== Sys2Proof/Laws/Ops.lean ====
section
/-! SUPPORT. What each shared operation can do, said once: the memory port, the run of reads, the shared meanings of the
command families, the waiting and the abandoning of a command. -/

namespace Sys2Proof.Machine

/-- Whether a read is admitted depends on neither the reads made before nor the registers. -/
theorem memRead_noteRead_notAdmitted (s : State) (a b : Nat) :
    memRead (noteRead a s) b = .notAdmitted ↔ memRead s b = .notAdmitted := by
  unfold memRead
  simp only [noteRead_cfg, noteRead_devices, noteRead_mem, noteRead_during, noteRead_draws]
  by_cases h1 : b < 2 ^ s.cfg.addrW <;> by_cases h2 : isDevice s.devices b = true <;>
    cases memLookup s.mem b <;> simp [h1, h2]

theorem memRead_noteRead_sideEffects (s : State) (a b : Nat) :
    memRead (noteRead a s) b = .sideEffects ↔ memRead s b = .sideEffects := by
  unfold memRead
  simp only [noteRead_cfg, noteRead_devices, noteRead_mem, noteRead_during, noteRead_draws]
  by_cases h1 : b < 2 ^ s.cfg.addrW <;> by_cases h2 : isDevice s.devices b = true <;>
    cases memLookup s.mem b <;> simp [h1, h2]

/-- A draw is one of the values the byte held (R73). -/
theorem drawByte_mem (n : Nat) (b : Byte) (later : List Byte) :
    drawByte n b later = b ∨ drawByte n b later ∈ later := by
  cases later with
  | nil => exact .inl rfl
  | cons c cs =>
    have h : drawByte n b (c :: cs) ∈ b :: c :: cs := by
      have hi : Config.raceDraw n % ((c :: cs).length + 1) < (b :: c :: cs).length := Nat.mod_lt _ (by simp)
      simp only [drawByte]
      rw [List.getD_eq_getElem _ _ hi]
      exact List.getElem_mem hi
    exact List.mem_cons.mp h

/-- A read answers a byte exactly when it is admitted (R64). -/
theorem memRead_byte_iff (s : State) (a : Nat) :
    (∃ b, memRead s a = .byte b) ↔ Admits s a := by
  unfold memRead Admits
  by_cases h1 : a < 2 ^ s.cfg.addrW
  · by_cases h2 : isDevice s.devices a = true
    · simp [h1, h2]
    · cases h3 : memLookup s.mem a <;> simp_all
  · simp [h1]

/-- The byte a read answers is one the address held (R64, R73). -/
theorem heldByte_of_memRead {s : State} {a : Nat} {b : Byte} (h : memRead s a = .byte b) : HeldByte s a b := by
  unfold memRead at h
  split at h <;> [skip; cases h]
  split at h <;> [cases h; skip]
  split at h
  · cases h
  · rename_i m hm
    cases h
    rcases drawByte_mem s.draws m (racedBytes s.during a) with e | e
    · exact .inl (by rw [e, hm])
    · exact .inr e

/-- Everything a run of `n` reads from `a` can do when it completes (R67): one byte from each address in ascending order, and
no change but the record of the reads. -/
theorem readBytes_next {n a : Nat} {s : State} {bs : List Byte} {t : State} (h : readBytes n a s = .next (bs, t)) :
    bs.length = n ∧ t = { s with reads := s.reads ++ List.range' a n, draws := s.draws + n } ∧
      ∀ j, j < n → Admits s (a + j) ∧ ∀ b, bs[j]? = some b → HeldByte s (a + j) b := by
  induction n generalizing a s bs t with
  | zero => cases h; simp
  | succ n ih =>
    rw [readBytes] at h
    split at h
    · cases h
    · cases h
    · rename_i b hb
      split at h
      · rename_i bs' t' ht
        cases h
        obtain ⟨hl, hst, hj⟩ := ih ht
        refine ⟨by simp [hl], ?_, ?_⟩
        · rw [hst]
          simp [noteRead, List.range'_succ, Nat.add_assoc, Nat.add_comm 1 n]
        · intro j hjn
          cases j with
          | zero =>
            refine ⟨(memRead_byte_iff s a).mp ⟨b, hb⟩, fun c hc => ?_⟩
            simp only [List.getElem?_cons_zero, Option.some.injEq] at hc
            exact hc ▸ heldByte_of_memRead hb
          | succ j =>
            have := hj j (by omega)
            have e : a + (j + 1) = a + 1 + j := by omega
            simpa [e, Admits, HeldByte] using this
      · cases h
      · cases h

/-- A run of reads completes when memory admits each of them (R64, R67). -/
theorem readBytes_completes {n a : Nat} {s : State} (h : ∀ j, j < n → Admits s (a + j)) :
    ∃ bs t, readBytes n a s = .next (bs, t) := by
  induction n generalizing a s with
  | zero => exact ⟨[], s, rfl⟩
  | succ n ih =>
    obtain ⟨b, hb⟩ := (memRead_byte_iff s a).mpr (h 0 (by omega))
    obtain ⟨bs, t, ht⟩ := ih (a := a + 1) (s := noteRead a s) (fun j hj => by
      have := h (j + 1) (by omega)
      have e : a + 1 + j = a + (j + 1) := by omega
      simpa [e, Admits] using this)
    exact ⟨b :: bs, t, by rw [readBytes, hb]; simp only [ht]⟩

/-- A run of reads stops at the first one that is not admitted, whatever was read before it (R114). -/
theorem readBytes_stuck {n a j : Nat} {s : State} (hj : j < n) (hb : ∀ k, k < j → Admits s (a + k))
    (hs : memRead s (a + j) = .notAdmitted) : readBytes n a s = .fault .readNotAdmitted := by
  induction n generalizing a s j with
  | zero => omega
  | succ n ih =>
    cases j with
    | zero => rw [readBytes]; simp only [Nat.add_zero] at hs; rw [hs]
    | succ j =>
      obtain ⟨b, hb0⟩ := (memRead_byte_iff s a).mpr (hb 0 (by omega))
      have e : a + (j + 1) = a + 1 + j := by omega
      have hrest := ih (a := a + 1) (j := j) (s := noteRead a s) (by omega) (fun k hk => by
        have := hb (k + 1) (by omega)
        have e' : a + 1 + k = a + (k + 1) := by omega
        simpa [e', Admits] using this) ((memRead_noteRead_notAdmitted s a _).mpr (e ▸ hs))
      rw [readBytes, hb0]
      simp only [hrest]

/-- What CAPV does at every state (R116). -/
theorem captureValue_next (w : Width) (sd : SlotNum) (s : State) :
    captureValue w sd s = .next (writeErr 0 (writeSlot sd (valueBytes w s.opa) s)) := rfl

/-- Everything DECINT can do (R150, R151). -/
theorem decodeInt_cases (w : Width) (signed : Bool) (ss : SlotNum) (s : State) :
    (widthBits w < bitLength (readSlot s ss) ∧ decodeInt w signed ss s = .next (writeErr 3 s)) ∨
    (bitLength (readSlot s ss) ≤ widthBits w ∧
      decodeInt w signed ss s =
        .next (writeErr 0 (writeRes (extendResult signed (accumulate (widthBits w) (readSlot s ss))) s))) := by
  unfold decodeInt
  split
  · exact .inl ⟨by assumption, rfl⟩
  · exact .inr ⟨by omega, rfl⟩

/-- Everything a float decoder can do (R190, R200). -/
theorem decodeFloat_cases (F : FloatFormat) (ss : SlotNum) (s : State) :
    (bitLength (readSlot s ss) ≠ formatWidth F ∧ decodeFloat F ss s = .next (writeErr 4 s)) ∨
    (bitLength (readSlot s ss) = formatWidth F ∧
      decodeFloat F ss s = .next (writeErr 0
        (writeCls (classify F (floatFields F (readSlot s ss)).E (floatFields F (readSlot s ss)).M)
          (writeRes (BitVec.ofNat 64 (outPattern s.cfg F (floatFields F (readSlot s ss)))) s)))) := by
  unfold decodeFloat
  split
  · exact .inl ⟨by assumption, rfl⟩
  · exact .inr ⟨by omega, rfl⟩

/-- Everything CAPM can do, in the order of R227. -/
theorem execCapm_cases (sd : SlotNum) (len : Imm) (s : State) :
    (len.toNat % 8 ≠ 0 ∧ execCapm sd len s = .next (writeErr 1 s)) ∨
    (len.toNat % 8 = 0 ∧ s.opa = 0 ∧ execCapm sd len s = .next (writeErr 0 (writeSlot sd [] s))) ∨
    (len.toNat % 8 = 0 ∧ s.opa ≠ 0 ∧ s.cfg.maxb < len.toNat / 8 ∧ execCapm sd len s = .next (writeErr 5 s)) ∨
    (len.toNat % 8 = 0 ∧ s.opa ≠ 0 ∧ len.toNat / 8 ≤ s.cfg.maxb ∧
      ((∃ bs t, readBytes (len.toNat / 8) s.opa.toNat s = .next (bs, t) ∧
          execCapm sd len s = .next (writeErr 0 (writeSlot sd bs t))) ∨
        (∃ r, readBytes (len.toNat / 8) s.opa.toNat s = .fault r ∧ execCapm sd len s = .fault r) ∨
        (∃ r, readBytes (len.toNat / 8) s.opa.toNat s = .refused r ∧ execCapm sd len s = .refused r))) := by
  unfold execCapm
  by_cases h1 : len.toNat % 8 = 0
  · by_cases h2 : s.opa = 0
    · exact .inr (.inl ⟨h1, h2, by simp [h1, h2]⟩)
    · have h2' : ¬ s.opa = 0#64 := h2
      by_cases h3 : s.cfg.maxb < len.toNat / 8
      · exact .inr (.inr (.inl ⟨h1, h2, h3, by simp [h1, h2', h3, errorCode]⟩))
      · refine .inr (.inr (.inr ⟨h1, h2, by omega, ?_⟩))
        cases h4 : readBytes (len.toNat / 8) s.opa.toNat s with
        | next p => exact .inl ⟨p.1, p.2, rfl, by simp [h1, h2', h3]⟩
        | fault r => exact .inr (.inl ⟨r, rfl, by simp [h1, h2', h3]⟩)
        | refused r => exact .inr (.inr ⟨r, rfl, by simp [h1, h2', h3]⟩)
  · exact .inl ⟨h1, by simp [h1, errorCode]⟩

/-- Everything a change of `RST` can do (R250). -/
theorem driveRst_cases (level : Bool) (s : State) :
    driveRst level s = s ∨ driveRst level s = resetBlock { s with rst := level } := by
  unfold driveRst
  split
  · exact .inr rfl
  · exact .inl rfl

/-- An abandoned capture leads to the reset state, with `RST` asserted; memory keeps its admitted addresses (R251). -/
theorem abandonStuck_some {s t : State} {es : List HostEvent} (h : abandonStuck s es = some t) :
    ∃ m rest, m.map Prod.fst = s.mem.map Prod.fst ∧
      t = resetBlock { s with rst := true, mem := m, host := rest } := by
  induction es generalizing s with
  | nil => cases h
  | cons e es ih =>
    cases e with
    | command cmd opa during => cases h
    | store addr w v =>
      obtain ⟨m, rest, hm, ht⟩ := ih (s := hostStore addr w v s) h
      exact ⟨m, rest, by rw [hm, hostStore_mem, memWriteBytes_addresses], ht⟩
    | rst level =>
      cases level with
      | false => exact ih h
      | true =>
        simp only [abandonStuck, Option.some.injEq] at h
        exact ⟨s.mem, es, rfl, by rw [← h]; simp [driveRst]⟩

end Sys2Proof.Machine
end

