-- ==== Sys2Proof/Laws/PerInstr.lean ====
section
/-! SUPPORT. One fact per command as syntax: the fields its word is made of fix `OPC` at the group's value and leave every
field the command does not use at 0 (30_encoding.md R81, R82, R87). -/

namespace Sys2Proof.Laws.UnusedFields

/-- The command's word has 0 in `SD` and in `SS` where the command does not use them, and `OPC` is one of R81. -/
def Statement (i : Instr) : Prop :=
  (i.dest? = none → (encodeFields i).sd = 0) ∧ (i.source? = none → (encodeFields i).ss = 0) ∧
    (encodeFields i).opc.toNat ∈ [0x01, 0x02, 0x03, 0x04, 0x05, 0x06, 0x10, 0x20, 0x21]

theorem capm (sd : SlotNum) (n : Imm) : Statement (.capm sd n) := by simp [Statement, Instr.dest?, Instr.source?, encodeFields]
theorem capv8 (sd : SlotNum) : Statement (.capv8 sd) := by simp [Statement, Instr.dest?, Instr.source?, encodeFields]
theorem capv16 (sd : SlotNum) : Statement (.capv16 sd) := by simp [Statement, Instr.dest?, Instr.source?, encodeFields]
theorem capv32 (sd : SlotNum) : Statement (.capv32 sd) := by simp [Statement, Instr.dest?, Instr.source?, encodeFields]
theorem capv64 (sd : SlotNum) : Statement (.capv64 sd) := by simp [Statement, Instr.dest?, Instr.source?, encodeFields]
theorem copy (sd ss : SlotNum) : Statement (.copy sd ss) := by simp [Statement, Instr.dest?, Instr.source?, encodeFields]
theorem bitlen (ss : SlotNum) : Statement (.bitlen ss) := by simp [Statement, Instr.dest?, Instr.source?, encodeFields]
theorem getbit (ss : SlotNum) (p : Imm) : Statement (.getbit ss p) := by simp [Statement, Instr.dest?, Instr.source?, encodeFields]
theorem rdbyte (ss : SlotNum) (p : Imm) : Statement (.rdbyte ss p) := by simp [Statement, Instr.dest?, Instr.source?, encodeFields]
theorem decu8 (ss : SlotNum) : Statement (.decu8 ss) := by simp [Statement, Instr.dest?, Instr.source?, encodeFields]
theorem decu16 (ss : SlotNum) : Statement (.decu16 ss) := by simp [Statement, Instr.dest?, Instr.source?, encodeFields]
theorem decu32 (ss : SlotNum) : Statement (.decu32 ss) := by simp [Statement, Instr.dest?, Instr.source?, encodeFields]
theorem decu64 (ss : SlotNum) : Statement (.decu64 ss) := by simp [Statement, Instr.dest?, Instr.source?, encodeFields]
theorem decs8 (ss : SlotNum) : Statement (.decs8 ss) := by simp [Statement, Instr.dest?, Instr.source?, encodeFields]
theorem decs16 (ss : SlotNum) : Statement (.decs16 ss) := by simp [Statement, Instr.dest?, Instr.source?, encodeFields]
theorem decs32 (ss : SlotNum) : Statement (.decs32 ss) := by simp [Statement, Instr.dest?, Instr.source?, encodeFields]
theorem decs64 (ss : SlotNum) : Statement (.decs64 ss) := by simp [Statement, Instr.dest?, Instr.source?, encodeFields]
theorem decf32 (ss : SlotNum) : Statement (.decf32 ss) := by simp [Statement, Instr.dest?, Instr.source?, encodeFields]
theorem decf64 (ss : SlotNum) : Statement (.decf64 ss) := by simp [Statement, Instr.dest?, Instr.source?, encodeFields]

end Sys2Proof.Laws.UnusedFields
end

