-- ==== Sys2Proof/Tests/Slice0.lean ====
section
/-! SUPPORT. Tests of the model against the spec's own vectors (95_test_vectors.md), and a witness for the hypotheses of
every statement. Expected values are copied from the spec or worked out by hand from its rules. -/

namespace Sys2Proof.Tests

open Sys2Proof.Machine

/-! ### Helpers -/

/-- The parameters of R11 but for three slots. -/
def threeSlots : Config := { Config.default with nseq := 3 }

/-- The state after reset with slot `k` holding `q`. -/
def holding (k : SlotNum) (q : BitSeq) : State := writeSlot k q State.reset

/-- The memory of 95_test_vectors.md 2.1: `DB 0F 49 C0` at 0x1000, nothing else admitted. -/
def vectorMemory : Memory := [(0x1000, 0xDB#8), (0x1001, 0x0F#8), (0x1002, 0x49#8), (0x1003, 0xC0#8)]

/-- The state after reset with that memory. -/
def withVectorMemory : State := { State.reset with mem := vectorMemory }

/-- The state whose next command is `cmd` with operand `opa`, followed by `rest`. -/
def presenting (cmd : Word) (opa : Dword) (rest : List HostEvent) (s : State) : State :=
  { s with host := .command cmd opa [] :: rest }

/-- The next state of an answer, if it is one. -/
def nextOf : Result → Option State
  | .next t => some t
  | .fault _ => none
  | .refused _ => none

/-- The state after one command. -/
def after (cmd : Word) (opa : Dword) (s : State) : Option State := nextOf (step (presenting cmd opa [] s))

/-- `ERR`, `RES` and `CLS` after one command. -/
def outputs (cmd : Word) (opa : Dword) (s : State) : Option Response := (after cmd opa s).map response

/-- Slot `k` after one command. -/
def slotAfter (cmd : Word) (opa : Dword) (k : SlotNum) (s : State) : Option BitSeq := (after cmd opa s).map (readSlot · k)

/-! ### Decoding: words written out bit by bit from R80 and R87 -/

/-- IMM16 = 32, SD = 1, OPC = 0x01. -/
theorem test_decode_capm : decode Config.default 0b00000000001000000000000100000001 = .instr (.capm 1 32) := by decide
/-- SD = 2, OPC = 0x02, FN = 0. -/
theorem test_decode_capv8 : decode Config.default 0b00000000000000000000001000000010 = .instr (.capv8 2) := by decide
/-- SD = 3, FN = 1. -/
theorem test_decode_capv16 : decode Config.default 0b00000000000000000001001100000010 = .instr (.capv16 3) := by decide
/-- SD = 0, FN = 2. -/
theorem test_decode_capv32 : decode Config.default 0b00000000000000000010000000000010 = .instr (.capv32 0) := by decide
/-- SD = 1, FN = 3. -/
theorem test_decode_capv64 : decode Config.default 0b00000000000000000011000100000010 = .instr (.capv64 1) := by decide
/-- SS = 1, SD = 3. -/
theorem test_decode_copy : decode Config.default 0b00000000000000000000011100000011 = .instr (.copy 3 1) := by decide
/-- SS = 2. -/
theorem test_decode_bitlen : decode Config.default 0b00000000000000000000100000000100 = .instr (.bitlen 2) := by decide
/-- IMM16 = 31, SS = 1. -/
theorem test_decode_getbit : decode Config.default 0b00000000000111110000010000000101 = .instr (.getbit 1 31) := by decide
/-- IMM16 = 7, SS = 1. -/
theorem test_decode_rdbyte : decode Config.default 0b00000000000001110000010000000110 = .instr (.rdbyte 1 7) := by decide
theorem test_decode_decu8 : decode Config.default 0b00000000000000000000100000010000 = .instr (.decu8 2) := by decide
theorem test_decode_decu16 : decode Config.default 0b00000000000000000001000000010000 = .instr (.decu16 0) := by decide
theorem test_decode_decu32 : decode Config.default 0b00000000000000000010010000010000 = .instr (.decu32 1) := by decide
theorem test_decode_decu64 : decode Config.default 0b00000000000000000011010000010000 = .instr (.decu64 1) := by decide
theorem test_decode_decs8 : decode Config.default 0b00000000000000000100110000010000 = .instr (.decs8 3) := by decide
theorem test_decode_decs16 : decode Config.default 0b00000000000000000101000000010000 = .instr (.decs16 0) := by decide
theorem test_decode_decs32 : decode Config.default 0b00000000000000000110000000010000 = .instr (.decs32 0) := by decide
theorem test_decode_decs64 : decode Config.default 0b00000000000000000111000000010000 = .instr (.decs64 0) := by decide
theorem test_decode_decf32 : decode Config.default 0b00000000000000000000110000100000 = .instr (.decf32 3) := by decide
theorem test_decode_decf64 : decode Config.default 0b00000000000000000000010000100001 = .instr (.decf64 1) := by decide

/-- The illegal words of 95_test_vectors.md 2.1 to 2.10, each for its reason. -/
theorem test_decode_illegal :
    decode Config.default 0x00000000 = .illegal .unassignedOpcode ∧ decode Config.default 0xFFFFFFFF = .illegal .unassignedOpcode ∧
    decode Config.default 0x00000007 = .illegal .unassignedOpcode ∧ decode Config.default 0x00000022 = .illegal .unassignedOpcode ∧
    decode Config.default 0x00200401 = .illegal .reservedField ∧ decode Config.default 0x00004002 = .illegal .reservedField ∧
    decode Config.default 0x00010002 = .illegal .reservedField ∧ decode Config.default 0x00010003 = .illegal .reservedField ∧
    decode Config.default 0x00008010 = .illegal .reservedField ∧ decode Config.default 0x00000110 = .illegal .reservedField ∧
    decode Config.default 0x00001020 = .illegal .reservedField ∧ decode threeSlots 0x00000C20 = .illegal .absentSlot := by decide

/-! ### Well-formedness: an ill-formed command for each check -/

/-- The destination slot must exist (R82): slot 3 does not with `NSEQ = 3`, and slot 2 does. -/
theorem test_wf_destination : (Instr.capv8 3).wf threeSlots = false ∧ (Instr.capv8 2).wf threeSlots = true := by decide

/-- The source slot must exist (R82). -/
theorem test_wf_source : (Instr.copy 0 3).wf threeSlots = false ∧ (Instr.copy 0 2).wf threeSlots = true := by decide

/-! ### The commands, on the spec's vectors -/

/-- 2.1, row 1. -/
theorem test_capm_captures : slotAfter 0x00200101 0x1000 1 withVectorMemory = some [0xDB, 0x0F, 0x49, 0xC0] := by decide

/-- 2.1, row 9: the read of 0x1004 is not admitted, so the block is stuck. -/
theorem test_capm_stuck : after 0x00280001 0x1000 withVectorMemory = none := by decide

/-- 2.1, row 6: InvalidLength comes before the null pointer. -/
theorem test_capm_null_bad_length :
    outputs 0x00050001 0 (holding 0 [0xFF]) = some ⟨1, 0, 0⟩ ∧ slotAfter 0x00050001 0 0 (holding 0 [0xFF]) = some [0xFF] := by decide

/-- 2.1, rows 11 and 12: with `MAXB = 8`, 72 bits are too many, but null is tested first. -/
theorem test_capm_capacity :
    outputs 0x00480001 0x1000 { State.reset with cfg := { Config.default with maxb := 8 } } = some ⟨5, 0, 0⟩ ∧
    outputs 0x00480001 0 { State.reset with cfg := { Config.default with maxb := 8 } } = some ⟨0, 0, 0⟩ := by decide

/-- 2.2, row 1: the upper bits of OPA are ignored. -/
theorem test_capv8 : slotAfter 0x00000002 0x1234 0 State.reset = some [0x34] := by decide
/-- 2.2, row 2. -/
theorem test_capv16 : slotAfter 0x00001302 0x8000 3 State.reset = some [0x00, 0x80] := by decide
/-- 2.2, row 4. -/
theorem test_capv32 : slotAfter 0x00002002 0xFFFFFFFF00000001 0 State.reset = some [0x01, 0x00, 0x00, 0x00] := by decide
/-- 2.2, row 5. -/
theorem test_capv64 : slotAfter 0x00003102 0x0807060504030201 1 State.reset = some [1, 2, 3, 4, 5, 6, 7, 8] := by decide

/-- 2.3, row 1. -/
theorem test_copy : slotAfter 0x00000203 0 2 (holding 0 [0xFF]) = some [0xFF] ∧ slotAfter 0x00000203 0 0 (holding 0 [0xFF]) = some [0xFF] := by decide

/-- 2.4, row 5. -/
theorem test_bitlen : outputs 0x00000804 0 (holding 2 [1, 2, 3, 4]) = some ⟨0, 0x20, 0⟩ := by decide

/-- 2.5: bits 5, 6 and 7 of A5, and the first position past the end. -/
theorem test_getbit :
    outputs 0x00050005 0 (holding 0 [0xA5]) = some ⟨0, 1, 0⟩ ∧ outputs 0x00060005 0 (holding 0 [0xA5]) = some ⟨0, 0, 0⟩ ∧
    outputs 0x00070005 0 (holding 0 [0xA5]) = some ⟨0, 1, 0⟩ ∧ outputs 0x00080005 0 (holding 0 [0xA5]) = some ⟨2, 0, 0⟩ := by decide

/-- 2.5: the bits of a sequence that spans bytes (31, 23 and 30 of -pi). -/
theorem test_getbit_later_bytes :
    outputs 0x001F0405 0 (holding 1 [0xDB, 0x0F, 0x49, 0xC0]) = some ⟨0, 1, 0⟩ ∧
    outputs 0x00170405 0 (holding 1 [0xDB, 0x0F, 0x49, 0xC0]) = some ⟨0, 0, 0⟩ ∧
    outputs 0x001E0405 0 (holding 1 [0xDB, 0x0F, 0x49, 0xC0]) = some ⟨0, 1, 0⟩ := by decide

/-- 2.6: index 6, and the first index past the end. -/
theorem test_rdbyte :
    outputs 0x00060406 0 (holding 1 [0, 0, 0, 0, 0, 0, 0xF8, 0x3F]) = some ⟨0, 0xF8, 0⟩ ∧
    outputs 0x00080406 0 (holding 1 [0, 0, 0, 0, 0, 0, 0xF8, 0x3F]) = some ⟨2, 0, 0⟩ := by decide

/-- 2.7: a full slot, and one byte too many. -/
theorem test_decu8 : outputs 0x00000010 0 (holding 0 [0xFF]) = some ⟨0, 0xFF, 0⟩ ∧ outputs 0x00000010 0 (holding 0 [0x00, 0x80]) = some ⟨3, 0, 0⟩ := by decide
theorem test_decu16 : outputs 0x00001010 0 (holding 0 [0x00, 0x80]) = some ⟨0, 0x8000, 0⟩ := by decide
theorem test_decu32 : outputs 0x00002010 0 (holding 0 [0x78, 0x56, 0x34, 0x12]) = some ⟨0, 0x12345678, 0⟩ := by decide
theorem test_decu64 : outputs 0x00003010 0 (holding 0 [1, 2, 3, 4, 5, 6, 7, 8]) = some ⟨0, 0x0807060504030201, 0⟩ ∧
    outputs 0x00003010 0 (holding 0 [1, 2, 3, 4, 5, 6, 7, 8, 9]) = some ⟨3, 0, 0⟩ := by decide
theorem test_decs8 : outputs 0x00004010 0 (holding 0 [0x80]) = some ⟨0, 0xFFFFFFFFFFFFFF80, 0⟩ ∧
    outputs 0x00004010 0 (holding 0 [0x7F]) = some ⟨0, 0x7F, 0⟩ := by decide
/-- 2.7: no sign extension from 8 bits. -/
theorem test_decs16 : outputs 0x00005010 0 (holding 0 [0xFF]) = some ⟨0, 0xFF, 0⟩ ∧
    outputs 0x00005010 0 (holding 0 [0x00, 0x80]) = some ⟨0, 0xFFFFFFFFFFFF8000, 0⟩ := by decide
theorem test_decs32 : outputs 0x00006010 0 (holding 0 [0xDB, 0x0F, 0x49, 0xC0]) = some ⟨0, 0xFFFFFFFFC0490FDB, 0⟩ ∧
    outputs 0x00006010 0 (holding 0 [0x00, 0x00, 0x80]) = some ⟨0, 0x800000, 0⟩ := by decide
theorem test_decs64 : outputs 0x00007010 0 (holding 0 [0xFF, 0xFF, 0xFF, 0xFF, 0xFF, 0xFF, 0xFF, 0xFF]) = some ⟨0, 0xFFFFFFFFFFFFFFFF, 0⟩ := by decide

/-- 2.8: -0, the largest subnormal negated, the largest finite value, and minus infinity. -/
theorem test_decf32 :
    outputs 0x00000020 0 (holding 0 [0, 0, 0, 0x80]) = some ⟨0, 0x80000000, 1⟩ ∧
    outputs 0x00000020 0 (holding 0 [0xFF, 0xFF, 0x7F, 0x80]) = some ⟨0, 0x807FFFFF, 2⟩ ∧
    outputs 0x00000020 0 (holding 0 [0xFF, 0xFF, 0x7F, 0x7F]) = some ⟨0, 0x7F7FFFFF, 3⟩ ∧
    outputs 0x00000020 0 (holding 0 [0, 0, 0x80, 0xFF]) = some ⟨0, 0xFF800000, 4⟩ := by decide

/-- 2.8: a signalling NaN and all ones, under APPLY and under DROP, and a slot that is not 32 bits. -/
theorem test_decf32_nan :
    outputs 0x00000020 0 (holding 0 [1, 0, 0x80, 0x7F]) = some ⟨0, 0x7FC00000, 5⟩ ∧
    outputs 0x00000020 0 (holding 0 [0xFF, 0xFF, 0xFF, 0xFF]) = some ⟨0, 0xFFC00000, 5⟩ ∧
    outputs 0x00000020 0 { holding 0 [0xFF, 0xFF, 0xFF, 0xFF] with cfg := { Config.default with nanSign := .drop } } =
      some ⟨0, 0x7FC00000, 5⟩ ∧
    outputs 0x00000020 0 (holding 0 [1, 2, 3]) = some ⟨4, 0, 0⟩ := by decide

/-- 2.9: 1.5, the smallest subnormal, plus infinity, and a binary32 pattern. -/
theorem test_decf64 :
    outputs 0x00000021 0 (holding 0 [0, 0, 0, 0, 0, 0, 0xF8, 0x3F]) = some ⟨0, 0x3FF8000000000000, 3⟩ ∧
    outputs 0x00000021 0 (holding 0 [1, 0, 0, 0, 0, 0, 0, 0]) = some ⟨0, 1, 2⟩ ∧
    outputs 0x00000021 0 (holding 0 [0, 0, 0, 0, 0, 0, 0xF0, 0x7F]) = some ⟨0, 0x7FF0000000000000, 4⟩ ∧
    outputs 0x00000021 0 (holding 0 [0, 0, 0x80, 0x3F]) = some ⟨4, 0, 0⟩ := by decide

/-- 2.9: a NaN with sign and payload. -/
theorem test_decf64_nan : outputs 0x00000021 0 (holding 0 [0xFF, 0xFF, 0xFF, 0xFF, 0xFF, 0xFF, 0xFF, 0xFF]) = some ⟨0, 0xFFF8000000000000, 5⟩ := by decide

/-- 2.8 and 2.9: the exact values of 1.5 in both formats and of -pi's binary32 pattern (R184). -/
theorem test_float_value :
    floatValue .binary32 (floatFields .binary32 [0, 0, 0xC0, 0x3F]) = .finite (2 ^ 23 + 2 ^ 22) (-23) ∧
    floatValue .binary32 (floatFields .binary32 [0xDB, 0x0F, 0x49, 0xC0]) = .finite (-13176795) (-22) ∧
    floatValue .binary64 (floatFields .binary64 [0, 0, 0, 0, 0, 0, 0xF8, 0x3F]) = .finite (2 ^ 52 + 2 ^ 51) (-52) ∧
    floatValue .binary64 (floatFields .binary64 [1, 0, 0, 0, 0, 0, 0, 0]) = .finite 1 (-1074) := by decide

/-- 2.10: an illegal word sets ERR alone. -/
theorem test_illegal_word : outputs 0x00000000 0 { holding 0 [0xFF] with res := 5, cls := 3 } = some ⟨6, 5, 3⟩ := by decide

/-- P5: the reset that follows a stuck capture gives the reset state, not `S[0] = 11`. -/
theorem test_reset_abandons_stuck :
    (nextOf (step (presenting 0x00400001 0x1000 [.rst true] { withVectorMemory with slots := (holding 0 [0x11]).slots }))).map
      (fun t => (readSlot t 0, t.rst)) = some ([], true) := by decide

/-- R250: a command presented while RST is asserted waits, and is taken after the release. -/
theorem test_command_waits_for_release :
    (nextOf (step { presenting 0x00000002 0x11 [.rst false] State.reset with rst := true })).map (fun t => (t.rst, t.host)) =
      some (false, [.command 0x00000002 0x11 []]) := by decide

/-- The vector memory of a big-endian host. -/
def onBigEndianHost : State := { withVectorMemory with cfg := { Config.default with hostOrder := .big } }

/-- R65: a host store of 0x12345678 on a big-endian host. -/
theorem test_host_store_big :
    (hostStore 0x1000 .w32 0x12345678 onBigEndianHost).mem =
      [(0x1000, 0x12#8), (0x1001, 0x34#8), (0x1002, 0x56#8), (0x1003, 0x78#8)] := by decide

/-- R73: after a command the bytes another agent wrote meanwhile are in memory. -/
theorem test_concurrent_write_lands :
    (nextOf (step { withVectorMemory with host := [.command 0x00000004 0 [(0x1001, 0xAA#8), (0x1001, 0xBB#8)]] })).map (·.mem) =
      some [(0x1000, 0xDB#8), (0x1001, 0xBB#8), (0x1002, 0x49#8), (0x1003, 0xC0#8)] := by decide

/-- The word placed by `withFetchWord` runs as the first command after reset. -/
theorem test_with_fetch_word : (nextOf (step (State.reset.withFetchWord 32 0x00200301))).map response = some ⟨0, 0, 0⟩ := by decide

/-- The table's words through the host's own entry. -/
theorem test_decode_table_word : decodeTableWord 32 0x00007010 = some (.decs64 0) ∧ decodeTableWord 32 0 = none := by decide

/-! ### Witnesses: hypotheses that hold together -/

theorem witness_DecodeOfEncode : (Instr.copy 3 2).wf Config.default = true := by decide

theorem witness_EncodeOfDecode : decode Config.default 0xFFFF0F05 = .illegal .reservedField ∧
    decode Config.default 0xFFFF0C05 = .instr (.getbit 3 0xFFFF) := by decide

/-- A word a row admits, one whose slot is absent, and one no row admits. -/
theorem witness_DecoderFollowsOpcodeMap :
    (∃ r ∈ opcodeMap, r.admits 0xFFF80301 = true ∧ decode Config.default 0xFFF80301 = .instr (.capm 3 0xFFF8)) ∧
    (∃ r ∈ opcodeMap, r.admits 0x00000C20 = true ∧ decode threeSlots 0x00000C20 = .illegal .absentSlot) ∧
    (∀ r ∈ opcodeMap, r.admits 0x00000022 = false) := by decide

/-- One word for each clause, at the value where the clause begins. -/
theorem witness_ReservedEncodingsAreIllegal :
    (CmdFields.ofWord 0x00000007).opc.toNat ∉ [0x01, 0x02, 0x03, 0x04, 0x05, 0x06, 0x10, 0x20, 0x21] ∧
    ((CmdFields.ofWord 0x00200401).opc = 1 ∧ (CmdFields.ofWord 0x00200401).ss ≠ 0) ∧
    ((CmdFields.ofWord 0x00000120).opc = 0x20 ∧ (CmdFields.ofWord 0x00000120).sd ≠ 0) ∧
    ((CmdFields.ofWord 0x00001020).opc = 0x20 ∧ (CmdFields.ofWord 0x00001020).fn ≠ 0) ∧
    ((CmdFields.ofWord 0x00010004).opc = 4 ∧ (CmdFields.ofWord 0x00010004).imm ≠ 0) ∧
    ((CmdFields.ofWord 0x00004002).opc = 2 ∧ (CmdFields.ofWord 0x00004002).fn.toNat = 4) ∧
    ((CmdFields.ofWord 0x00008010).opc = 0x10 ∧ (CmdFields.ofWord 0x00008010).fn.toNat = 8) ∧
    ((CmdFields.ofWord 0x00000301).opc = 1 ∧ threeSlots.nseq = (CmdFields.ofWord 0x00000301).sd.toNat) ∧
    ((CmdFields.ofWord 0x00000C20).opc = 0x20 ∧ threeSlots.nseq = (CmdFields.ofWord 0x00000C20).ss.toNat) := by decide

/-- The state that took `capm s0, bits, [0x1000]`. -/
def tookCapm (bits : Imm) (rest : List HostEvent) (s : State) : State :=
  acceptCommand (encode (.capm 0 bits)) 0x1000 [] rest s

/-- The vector memory with a device region in place of its last byte. -/
def withDevice : State := { withVectorMemory with devices := [⟨0x1003, 1⟩] }

/-- A command that completes, one refused, one stuck with no reset to come and one abandoned. -/
theorem witness_StepRunsDecodedCommand :
    (presenting (encode (.capm 0 32)) 0x1000 [] withVectorMemory).rst = false ∧
    decode Config.default (encode (.capm 0 32)) = .instr (.capm 0 32) ∧
    (∃ t, exec (.capm 0 32) (tookCapm 32 [] withVectorMemory) = .next t) ∧
    exec (.capm 0 32) (tookCapm 32 [] withDevice) = .refused .sideEffectRead ∧
    exec (.capm 0 40) (tookCapm 40 [] withVectorMemory) = .fault .readNotAdmitted ∧
    abandonStuck (finishCommand (tookCapm 40 [] withVectorMemory)) [] = none ∧
    (abandonStuck (finishCommand (tookCapm 40 [.rst true] withVectorMemory)) [.rst true]).isSome = true :=
  ⟨rfl, by decide, ⟨_, rfl⟩, rfl, rfl, rfl, by decide⟩

theorem witness_IllegalWordSetsErrOnly :
    (presenting 0 7 [] withVectorMemory).rst = false ∧ (presenting 0 7 [] withVectorMemory).host = .command 0 7 [] :: [] ∧
    decode (presenting 0 7 [] withVectorMemory).cfg 0 = .illegal .unassignedOpcode := by decide

theorem witness_IdleKeepsState : State.reset.host = [] := rfl

theorem witness_HostStoreKeepsTheBlock :
    ∃ s : State, s.host = .store 0x1000 .w16 0xABCD :: [] ∧ s.mem = vectorMemory :=
  ⟨{ withVectorMemory with host := [.store 0x1000 .w16 0xABCD] }, rfl, rfl⟩

/-- One state for each clause: RST about to be asserted between commands, asserted before a command, about to be released
without and with a command waiting, and released already. The second state is also the one of the waiting store. -/
theorem witness_RstHoldsAndResetsTheBlock :
    (∃ s : State, s.rst = false ∧ s.res ≠ 0 ∧ s.host = .rst true :: []) ∧
    (∃ s : State, s.rst = true ∧ s.host = .command 0x00000002 0x11 [] :: [.store 0x1000 .w8 1]) ∧
    (∃ s : State, s.rst = true ∧ s.res ≠ 0 ∧ s.host = .rst false :: []) ∧
    (∃ s : State, s.rst = true ∧ s.res ≠ 0 ∧ s.host = .command 0x00000002 0x11 [] :: .rst false :: []) ∧
    (∃ s : State, s.rst = false ∧ s.res ≠ 0 ∧ s.host = .rst false :: []) :=
  ⟨⟨{ State.reset with res := 9, host := _ }, rfl, by decide, rfl⟩, ⟨{ State.reset with rst := true, host := _ }, rfl, rfl⟩,
    ⟨{ State.reset with rst := true, res := 9, host := _ }, rfl, by decide, rfl⟩,
    ⟨{ State.reset with rst := true, res := 9, host := _ }, rfl, by decide, rfl⟩,
    ⟨{ State.reset with res := 9, host := _ }, rfl, by decide, rfl⟩⟩

theorem witness_ResetAbandonsStuckCapture :
    (presenting (encode (.capm 0 40)) 0x1000 [.rst true] withVectorMemory).rst = false ∧
    decode Config.default (encode (.capm 0 40)) = .instr (.capm 0 40) ∧
    exec (.capm 0 40) (tookCapm 40 [.rst true] withVectorMemory) = .fault .readNotAdmitted :=
  ⟨rfl, by decide, rfl⟩

theorem witness_CommandsOnEmptySlots : readSlot State.reset 3 = [] := by decide

/-- An address past the end of a 12-bit space, an unlisted one, and an admitted one that no other agent writes. -/
theorem witness_MemReadAnswers :
    2 ^ ({ withVectorMemory with cfg := { Config.default with addrW := 12 } } : State).cfg.addrW ≤ 0x1000 ∧
    (isDevice withVectorMemory.devices 0x1004 = false ∧ memLookup withVectorMemory.mem 0x1004 = none) ∧
    (Admits withVectorMemory 0x1003 ∧ memLookup withVectorMemory.mem 0x1003 = some 0xC0 ∧
      racedBytes withVectorMemory.during 0x1003 = []) := by decide

/-- A raced read: the byte is in memory and another agent writes it. -/
theorem witness_RacedReadAnswersAHeldByte :
    Admits { withVectorMemory with during := [(0x1000, 0x55#8)] } 0x1000 ∧
    racedBytes ({ withVectorMemory with during := [(0x1000, 0x55#8)] } : State).during 0x1000 = [0x55] := by decide

/-- The last admitted byte is the last one read. -/
theorem witness_CapmCaptures :
    (32#16).toNat % 8 = 0 ∧ (tookCapm 32 [] withVectorMemory).opa ≠ 0 ∧
    (32#16).toNat / 8 ≤ (tookCapm 32 [] withVectorMemory).cfg.maxb ∧
    ∀ j, j < (32#16).toNat / 8 → Admits (tookCapm 32 [] withVectorMemory) ((tookCapm 32 [] withVectorMemory).opa.toNat + j) := by
  decide

theorem witness_CapmBytesInAddressOrder :
    (tookCapm 32 [] withVectorMemory).opa ≠ 0 ∧ (tookCapm 32 [] withVectorMemory).during = [] ∧
    ∃ t, exec (.capm 0 32) (tookCapm 32 [] withVectorMemory) = .next t ∧ t.err = 0 :=
  ⟨by decide, rfl, _, rfl, rfl⟩

/-- The null pointer with a length, and a length of 0 with a pointer. -/
theorem witness_CapmNullIsEmpty :
    ((64#16).toNat % 8 = 0 ∧ State.reset.opa = 0) ∧ ((0#16).toNat % 8 = 0 ∧ (tookCapm 0 [] withVectorMemory).opa ≠ 0) := by decide

theorem witness_CapmInvalidLength : (65535#16).toNat % 8 ≠ 0 ∧ (5#16).toNat % 8 ≠ 0 := by decide

/-- 72 bits at `MAXB = 8`; the largest multiple-of-8 length at `MAXB = 8191`. -/
theorem witness_CapmCapacityExceeded :
    ((72#16).toNat % 8 = 0 ∧ (8 : Nat) < (72#16).toNat / 8) ∧
    (State.reset.cfg.maxb = 8191 ∧ (65528#16).toNat / 8 = 8191 ∧ ∃ t, exec (.capm 0 65528) State.reset = .next t) :=
  ⟨by decide, rfl, by decide, _, rfl⟩

/-- The fifth byte is the first that is not admitted. -/
theorem witness_CapmStuckHasNoStep :
    (40#16).toNat % 8 = 0 ∧ (tookCapm 40 [] withVectorMemory).opa ≠ 0 ∧ 4 < (40#16).toNat / 8 ∧
    (40#16).toNat / 8 ≤ (tookCapm 40 [] withVectorMemory).cfg.maxb ∧
    (∀ k, k < 4 → Admits (tookCapm 40 [] withVectorMemory) (0x1000 + k)) ∧
    memRead (tookCapm 40 [] withVectorMemory) (0x1000 + 4) = .notAdmitted ∧
    abandonStuck (finishCommand (tookCapm 40 [] withVectorMemory)) (tookCapm 40 [] withVectorMemory).host = none := by decide

/-- The fourth byte lies in a device region. -/
theorem witness_CapmOfDeviceRegionRefused :
    (32#16).toNat % 8 = 0 ∧ (tookCapm 32 [] withDevice).opa ≠ 0 ∧ 3 < (32#16).toNat / 8 ∧
    (32#16).toNat / 8 ≤ (tookCapm 32 [] withDevice).cfg.maxb ∧
    (∀ k, k < 3 → Admits (tookCapm 32 [] withDevice) (0x1000 + k)) ∧
    (0x1000 + 3 < 2 ^ (tookCapm 32 [] withDevice).cfg.addrW ∧ isDevice (tookCapm 32 [] withDevice).devices (0x1000 + 3) = true) := by
  decide

/-- A little-endian and a big-endian host, each with memory that admits the stored bytes. -/
theorem witness_StoredValueCapturedInHostOrder :
    (withVectorMemory.cfg.Legal ∧ withVectorMemory.cfg.hostOrder = .little ∧ (0x1000#64) ≠ 0 ∧
      ∀ j, j < widthBytes .w32 → Admits withVectorMemory ((0x1000#64).toNat + j)) ∧
    (onBigEndianHost.cfg.Legal ∧ onBigEndianHost.cfg.hostOrder = .big ∧
      ∀ j, j < widthBytes .w32 → Admits onBigEndianHost ((0x1000#64).toNat + j)) := by decide

theorem witness_CopiesAreIndependent :
    (2 : SlotNum) ≠ 0 ∧ ∃ t u, exec (.copy 2 0) (holding 0 [0xFF]) = .next t ∧ exec (.capv8 0) t = .next u ∧
      (Instr.capv8 0).dest? ≠ some 2 :=
  ⟨by decide, _, _, rfl, rfl, by decide⟩

theorem witness_BitlenReturnsBitLength : (readSlot (holding 2 [1, 2, 3, 4]) 2).length ≤ 8191 := by decide

/-- The last position of a one-byte slot, and the first past it. -/
theorem witness_GetbitReturnsBit :
    (readSlot (holding 0 [0xA5]) 0)[(7#16).toNat / 8]? = some 0xA5 ∧ (readSlot (holding 0 [0xA5]) 0).length * 8 ≤ (8#16).toNat := by
  decide

/-- The last index of a two-byte slot, and the first past it. -/
theorem witness_RdbyteReturnsByte :
    (readSlot (holding 1 [0xF8, 0x3F]) 1)[(1#16).toNat]? = some 0x3F ∧ (readSlot (holding 1 [0xF8, 0x3F]) 1).length ≤ (2#16).toNat := by
  decide

/-- A slot of exactly W bits, and one a byte longer, for each of the two families. -/
theorem witness_DecuReturnsPattern :
    (Instr.decu16 0, 2, 0b0001#4) ∈ [(Instr.decu8 0, 1, 0b0000#4), (Instr.decu16 0, 2, 0b0001), (Instr.decu32 0, 4, 0b0010),
      (Instr.decu64 0, 8, 0b0011)] ∧
    (readSlot (holding 0 [0, 0x80]) 0).length ≤ 2 ∧ 2 < (readSlot (holding 0 [0, 0x80, 1]) 0).length := by decide

theorem witness_DecsReturnsSignExtended :
    (Instr.decs16 0, 2, 0b0101#4) ∈ [(Instr.decs8 0, 1, 0b0100#4), (Instr.decs16 0, 2, 0b0101), (Instr.decs32 0, 4, 0b0110),
      (Instr.decs64 0, 8, 0b0111)] ∧
    (readSlot (holding 0 [0, 0x80]) 0).length ≤ 2 ∧ 2 < (readSlot (holding 0 [0, 0x80, 1]) 0).length := by decide

/-- A full slot with its top bit set (both conclusions differ there), and a short one. -/
theorem witness_IntegerResultBits : bitLength (readSlot (holding 0 [0x80]) 0) ≤ widthBits .w8 ∧
    bitLength (readSlot (holding 0 [0x80]) 0) ≤ 8 ∧ 8 < widthBits .w16 := by decide

theorem witness_IntegerResultValue :
    bitLength (readSlot (holding 0 [0x80]) 0) ≤ widthBits .w8 ∧ ¬ pattern (readSlot (holding 0 [0x80]) 0) < 2 ^ (widthBits .w8 - 1) ∧
    pattern (readSlot (holding 0 [0x7F]) 0) < 2 ^ (widthBits .w8 - 1) := by decide

theorem witness_ShortSlotIsNotSignExtended : bitLength (readSlot (holding 0 [0xFF]) 0) < widthBits .w16 := by decide

theorem witness_DecuAndDecsAgree :
    bitLength (readSlot (holding 0 [0x80]) 0) ≤ widthBits .w8 ∧
    (∃ t u, exec (decuOf .w8 0) (holding 0 [0x80]) = .next t ∧ exec (decsOf .w8 0) (holding 0 [0x80]) = .next u ∧ t.res ≠ u.res) :=
  ⟨by decide, _, _, rfl, rfl, by decide⟩

/-- The host's actions of a round trip through slot 3. -/
theorem witness_IntegerRoundTrip :
    ∃ s : State, s.rst = false ∧ (3 : SlotNum).toNat < s.cfg.nseq ∧
      s.host = .command (encode (capvOf .w16 3)) 0x8000 [] :: .command (encode (if true then decsOf .w16 3 else decuOf .w16 3)) 0 [] :: [] :=
  ⟨{ State.reset with host := _ }, rfl, by decide, rfl⟩

/-- Each class at its boundary: the rows exclude each other. -/
theorem witness_ClassificationTable :
    classify .binary32 0 0 = .zero ∧ classify .binary32 0 1 = .subnormal ∧ classify .binary32 1 0 = .normal ∧
    classify .binary32 254 5 = .normal ∧ classify .binary32 255 0 = .infinity ∧ classify .binary32 255 1 = .nan ∧
    255 ≤ exponentMax .binary32 ∧ 2047 ≤ exponentMax .binary64 := by decide

theorem witness_FieldsArePatternSlices : bitLength [1, 2, 3, 4] = 32 ∧ bitLength [1, 2, 3, 4, 5, 6, 7, 8] = 64 := by decide

/-- Infinity (the largest pattern before the NaNs) and the first NaN. -/
theorem witness_Decf32Result :
    (bitLength (readSlot (holding 0 [0, 0, 0x80, 0x7F]) 0) = 32 ∧ pattern (readSlot (holding 0 [0, 0, 0x80, 0x7F]) 0) = 0x7F800000) ∧
    (pattern (readSlot (holding 0 [1, 0, 0x80, 0x7F]) 0) / 2 ^ 23 % 2 ^ 8 = 255 ∧
      pattern (readSlot (holding 0 [1, 0, 0x80, 0x7F]) 0) % 2 ^ 23 ≠ 0) := by decide

theorem witness_Decf64Result :
    (bitLength (readSlot (holding 0 [0, 0, 0, 0, 0, 0, 0xF0, 0x7F]) 0) = 64 ∧
      pattern (readSlot (holding 0 [0, 0, 0, 0, 0, 0, 0xF0, 0x7F]) 0) = 0x7FF0000000000000) ∧
    (pattern (readSlot (holding 0 [1, 0, 0, 0, 0, 0, 0xF0, 0x7F]) 0) / 2 ^ 52 % 2 ^ 11 = 2047 ∧
      pattern (readSlot (holding 0 [1, 0, 0, 0, 0, 0, 0xF0, 0x7F]) 0) % 2 ^ 52 ≠ 0) := by decide

theorem witness_FloatWrongWidth :
    bitLength (readSlot (holding 0 [1, 2, 3, 4, 5]) 0) ≠ 32 ∧ bitLength (readSlot (holding 0 [1, 2, 3, 4]) 0) ≠ 64 := by decide

/-- Two NaNs of one sign with different payloads. -/
theorem witness_NanIsCanonical :
    State.reset.cfg.Legal ∧ bitLength (readSlot (holding 0 [1, 0, 0x80, 0x7F]) 0) = formatWidth .binary32 ∧
    classify .binary32 (floatFields .binary32 [1, 0, 0x80, 0x7F]).E (floatFields .binary32 [1, 0, 0x80, 0x7F]).M = .nan ∧
    classify .binary32 (floatFields .binary32 [2, 0, 0xC0, 0x7F]).E (floatFields .binary32 [2, 0, 0xC0, 0x7F]).M = .nan ∧
    (floatFields .binary32 [1, 0, 0x80, 0x7F]).sign = (floatFields .binary32 [2, 0, 0xC0, 0x7F]).sign := by decide

theorem witness_SeriesIsClosedForm :
    (⟨1, 0, 2 ^ 23 - 1⟩ : FloatFields).M < 2 ^ mantissaWidth .binary32 ∧
    (⟨0, 2046, 2 ^ 52 - 1⟩ : FloatFields).M < 2 ^ mantissaWidth .binary64 := by decide

theorem witness_ValueDeterminesPattern :
    bitLength [0, 0, 0xC0, 0x3F] = formatWidth .binary32 ∧ floatValue .binary32 (floatFields .binary32 [0, 0, 0xC0, 0x3F]) ≠ .nan ∧
    (floatValue .binary32 (floatFields .binary32 [0, 0, 0xC0, 0x3F])).same (floatValue .binary32 (floatFields .binary32 [0, 0, 0xC0, 0x3F])) :=
  ⟨by decide, by decide, rfl⟩

theorem witness_DecoderReturnsTheValue :
    State.reset.cfg.Legal ∧ bitLength (readSlot (holding 0 [1, 0, 0x80, 0x7F]) 0) = formatWidth .binary32 ∧
    bitLength (readSlot (holding 0 [0, 0, 0, 0, 0, 0, 0xF8, 0x3F]) 0) = formatWidth .binary64 := by decide

/-- A signed zero and a NaN. -/
theorem witness_Float32RoundTrip :
    (∃ s : State, s.rst = false ∧ (3 : SlotNum).toNat < s.cfg.nseq ∧
      s.host = .command (encode (.capv32 3)) 0x80000000 [] :: .command (encode (.decf32 3)) 0 [] :: []) ∧
    ¬ (((0x80000000#64).setWidth 32).extractLsb' 23 8 = 255#8 ∧ ((0x80000000#64).setWidth 32).extractLsb' 0 23 ≠ 0#23) ∧
    (((0x7F800001#64).setWidth 32).extractLsb' 23 8 = 255#8 ∧ ((0x7F800001#64).setWidth 32).extractLsb' 0 23 ≠ 0#23) :=
  ⟨⟨{ State.reset with host := _ }, rfl, by decide, rfl⟩, by decide, by decide⟩

theorem witness_Float64RoundTrip :
    (∃ s : State, s.rst = false ∧ (3 : SlotNum).toNat < s.cfg.nseq ∧
      s.host = .command (encode (.capv64 3)) 0xFFF0000000000000 [] :: .command (encode (.decf64 3)) 0 [] :: []) ∧
    ¬ ((0xFFF0000000000000#64).extractLsb' 52 11 = 2047#11 ∧ (0xFFF0000000000000#64).extractLsb' 0 52 ≠ 0#52) :=
  ⟨⟨{ State.reset with host := _ }, rfl, by decide, rfl⟩, by decide⟩

/-- A completing command for the statements whose hypothesis is that `exec` answered a next state: one that fails with an
error, one that writes a slot, one that writes RES and one that writes CLS. -/
theorem witness_ErrorsArePrecise :
    (∃ t, exec (.getbit 0 8) (holding 0 [0xA5]) = .next t ∧ t.err ≠ 0) ∧ (∃ t, exec (.getbit 0 7) (holding 0 [0xA5]) = .next t ∧ t.err = 0) :=
  ⟨⟨_, rfl, by decide⟩, ⟨_, rfl, by decide⟩⟩

theorem witness_OnlyCapturesWriteSlots :
    ∃ t, exec (.capv8 1) State.reset = .next t ∧ (Instr.capv8 1).dest? ≠ some 2 := ⟨_, rfl, by decide⟩

theorem witness_WhoWritesResAndCls :
    (∃ t, exec (.copy 1 0) (holding 0 [1]) = .next t ∧ (Instr.copy 1 0).dest? ≠ none) ∧
    (∃ t, exec (.bitlen 0) (holding 0 [1]) = .next t ∧ ∀ k, Instr.bitlen 0 ≠ .decf32 k ∧ Instr.bitlen 0 ≠ .decf64 k) :=
  ⟨⟨_, rfl, by decide⟩, ⟨_, rfl, by simp⟩⟩

theorem witness_NoCommandWritesMemory :
    (∃ t, exec (.capm 0 32) (tookCapm 32 [] withVectorMemory) = .next t) ∧
    (∃ t, exec (.capv32 0) withVectorMemory = .next t ∧ ∀ k n, Instr.capv32 0 ≠ .capm k n) :=
  ⟨⟨_, rfl⟩, ⟨_, rfl, by simp⟩⟩

theorem witness_OnlyCapmCanFailToComplete : ∀ k n, Instr.decf64 0 ≠ .capm k n := by simp

theorem witness_OutputsAreNeverRead :
    (∃ t, exec (.decf32 0) (holding 0 [0, 0, 0x80, 0x3F]) = .next t) ∧
    exec (.capm 0 40) (tookCapm 40 [] withVectorMemory) = .fault .readNotAdmitted ∧
    exec (.capm 0 32) (tookCapm 32 [] withDevice) = .refused .sideEffectRead := ⟨⟨_, rfl⟩, rfl, rfl⟩

/-- A command that ignores OPA, and a CAPV8 whose operands agree in the low byte alone. -/
theorem witness_UnusedOperandIsIgnored :
    (∃ t, exec (.bitlen 0) State.reset = .next t ∧ (∀ k n, Instr.bitlen 0 ≠ .capm k n) ∧ ∀ w k, Instr.bitlen 0 ≠ capvOf w k) ∧
    ((0x1234#64).setWidth (widthBits .w8) = (0x34#64).setWidth (widthBits .w8) ∧
      ∃ t, exec (capvOf .w8 0) { State.reset with opa := 0x34 } = .next t) :=
  ⟨⟨_, rfl, by simp, by intro w k; cases w <;> simp [capvOf]⟩, by decide, _, rfl⟩

/-- Two states that agree in slot 0 and differ in slot 1. -/
theorem witness_DecodesDependOnSourceAlone :
    decfOf .binary32 0 ∈ [decuOf .w32 0, decsOf .w32 0, decfOf .binary32 0] ∧
    readSlot (holding 0 [0, 0, 0x80, 0x3F]) 0 = readSlot (writeSlot 1 [7] (holding 0 [0, 0, 0x80, 0x3F])) 0 ∧
    (∃ t t', exec (decfOf .binary32 0) (holding 0 [0, 0, 0x80, 0x3F]) = .next t ∧
      exec (decfOf .binary32 0) (writeSlot 1 [7] (holding 0 [0, 0, 0x80, 0x3F])) = .next t' ∧ t.err = 0) :=
  ⟨by decide, by decide, _, _, rfl, rfl, rfl⟩

/-- A state past reset that meets the invariant and steps. -/
theorem witness_StepKeepsTheInvariant :
    (presenting (encode (.capm 0 32)) 0x1000 [] withVectorMemory).Inv ∧
    (nextOf (step (presenting (encode (.capm 0 32)) 0x1000 [] withVectorMemory))).isSome = true := by decide

theorem witness_StepKeepsParametersAndAdmission :
    ∃ t, step { withVectorMemory with host := [.store 0x1002 .w32 0xAABBCCDD] } = .next t ∧ t.mem ≠ vectorMemory :=
  ⟨_, rfl, by decide⟩

end Sys2Proof.Tests
end

section
/-! SUPPORT. Everything a command that completes can have done, said once for all 19 commands: it failed, captured into its
destination, or returned a result. -/

namespace Sys2Proof.Machine

/-- The next states a command can answer. The record of reads and the count of draws that a CAPM leaves are not said here
(`readBytes_next` says them). -/
inductive Completion (s : State) : Instr → State → Prop where
  /-- The command raised an error (R18, R225). -/
  | failed (i : Instr) (e : ErrorKind) : Completion s i (writeErr (errorCode e) s)
  /-- CAPM captured bytes that fit the slot (R110, R112, R113). -/
  | capturedMemory (sd : SlotNum) (n : Imm) (bs : BitSeq) (reads : List Nat) (draws : Nat) (hfit : bs.length ≤ s.cfg.maxb) :
    Completion s (.capm sd n) (writeErr 0 (writeSlot sd bs { s with reads := reads, draws := draws }))
  /-- CAPV captured the low bytes of the operand (R116). -/
  | capturedValue (w : Width) (sd : SlotNum) :
    Completion s (capvOf w sd) (writeErr 0 (writeSlot sd (valueBytes w s.opa) s))
  /-- COPY copied a slot (R123). -/
  | copied (sd ss : SlotNum) : Completion s (.copy sd ss) (writeErr 0 (writeSlot sd (readSlot s ss) s))
  /-- The command returned a result in `RES` alone (R37). -/
  | returned (i : Instr) (v : Dword) (hd : i.dest? = none) : Completion s i (writeErr 0 (writeRes v s))
  /-- A float decoder returned a result and its class (R190, R200). -/
  | returnedClass (F : FloatFormat) (ss : SlotNum) (v : Dword) (c : FloatClass) :
    Completion s (decfOf F ss) (writeErr 0 (writeCls c (writeRes v s)))

theorem execCapm_completion {sd : SlotNum} {n : Imm} {s t : State} (h : execCapm sd n s = .next t) :
    Completion s (.capm sd n) t := by
  rcases execCapm_cases sd n s with ⟨-, e⟩ | ⟨-, -, e⟩ | ⟨-, -, -, e⟩ |
    ⟨-, -, hfit, ⟨bs, u, hr, e⟩ | ⟨r, -, e⟩ | ⟨r, -, e⟩⟩ <;> rw [e] at h <;> cases h
  · exact .failed _ .invalidLength
  · exact .capturedMemory sd n [] s.reads s.draws (Nat.zero_le _)
  · exact .failed _ .capacityExceeded
  · obtain ⟨hlen, rfl, -⟩ := readBytes_next hr
    exact .capturedMemory sd n bs _ _ (hlen.trans_le hfit)

theorem captureValue_completion {w : Width} {sd : SlotNum} {s t : State} (h : captureValue w sd s = .next t) :
    Completion s (capvOf w sd) t := by
  cases h
  exact .capturedValue w sd

theorem execCopy_completion {sd ss : SlotNum} {s t : State} (h : execCopy sd ss s = .next t) :
    Completion s (.copy sd ss) t := by
  cases h
  exact .copied sd ss

theorem execBitlen_completion {ss : SlotNum} {s t : State} (h : execBitlen ss s = .next t) :
    Completion s (.bitlen ss) t := by
  cases h
  exact .returned _ _ rfl

theorem execGetbit_completion {ss : SlotNum} {pos : Imm} {s t : State} (h : execGetbit ss pos s = .next t) :
    Completion s (.getbit ss pos) t := by
  unfold execGetbit at h
  split at h <;> cases h
  · exact .failed _ .outOfRange
  · exact .returned _ _ rfl

theorem execRdbyte_completion {ss : SlotNum} {index : Imm} {s t : State} (h : execRdbyte ss index s = .next t) :
    Completion s (.rdbyte ss index) t := by
  unfold execRdbyte at h
  split at h <;> cases h
  · exact .failed _ .outOfRange
  · exact .returned _ _ rfl

/-- Stated for any command without a destination, so that it serves all eight integer decodes. -/
theorem decodeInt_completion {i : Instr} {w : Width} {signed : Bool} {ss : SlotNum} {s t : State}
    (hd : i.dest? = none) (h : decodeInt w signed ss s = .next t) : Completion s i t := by
  rcases decodeInt_cases w signed ss s with ⟨-, e⟩ | ⟨-, e⟩ <;> rw [e] at h <;> cases h
  · exact .failed _ .widthOverflow
  · exact .returned _ _ hd

theorem decodeFloat_completion {F : FloatFormat} {ss : SlotNum} {s t : State} (h : decodeFloat F ss s = .next t) :
    Completion s (decfOf F ss) t := by
  rcases decodeFloat_cases F ss s with ⟨-, e⟩ | ⟨-, e⟩ <;> rw [e] at h <;> cases h
  · exact .failed _ .wrongWidth
  · exact .returnedClass F ss _ _

/-- The inversion of `exec`: every next state of every command is one of those of `Completion`. -/
theorem exec_completion {i : Instr} {s t : State} (h : exec i s = .next t) : Completion s i t := by
  cases i with
  | capm sd n => exact execCapm_completion h
  | capv8 sd => exact captureValue_completion (w := .w8) h
  | capv16 sd => exact captureValue_completion (w := .w16) h
  | capv32 sd => exact captureValue_completion (w := .w32) h
  | capv64 sd => exact captureValue_completion (w := .w64) h
  | copy sd ss => exact execCopy_completion h
  | bitlen ss => exact execBitlen_completion h
  | getbit ss pos => exact execGetbit_completion h
  | rdbyte ss index => exact execRdbyte_completion h
  | decu8 ss | decu16 ss | decu32 ss | decu64 ss | decs8 ss | decs16 ss | decs32 ss | decs64 ss =>
    exact decodeInt_completion rfl h
  | decf32 ss => exact decodeFloat_completion (F := .binary32) h
  | decf64 ss => exact decodeFloat_completion (F := .binary64) h

end Sys2Proof.Machine
end

section
/-! PROOF. The invariant holds at reset and every step keeps it (O57, O58): one lemma per operation on the state, then
`exec` by its completions, `settle` and `step`. -/

namespace Sys2Proof.Machine

/-! ### Parts of the invariant -/

theorem State.Inv.legal {s : State} (h : s.Inv) : s.cfg.Legal := h.1

theorem State.Inv.length_le {s : State} (h : s.Inv) (k : SlotNum) : (readSlot s k).length ≤ s.cfg.maxb := h.2.1 k

theorem State.Inv.mem_wf {s : State} (h : s.Inv) : Memory.wf s.mem = true := by
  obtain ⟨-, -, -, -, -, -, hmem⟩ := h
  exact hmem

/-! ### The operations on the state -/

theorem errorCode_ne_seven (e : ErrorKind) : errorCode e ≠ 7 := by cases e <;> decide

theorem classCode_ne_six (c : FloatClass) : classCode c ≠ 6 := by cases c <;> decide

theorem classCode_ne_seven (c : FloatClass) : classCode c ≠ 7 := by cases c <;> decide

theorem writeErr_keeps_inv {e : BitVec 3} {s : State} (he : e ≠ 7) (h : s.Inv) : (writeErr e s).Inv := by
  obtain ⟨hcfg, hlen, habsent, -, hcls6, hcls7, hmem⟩ := h
  exact ⟨hcfg, hlen, habsent, he, hcls6, hcls7, hmem⟩

theorem writeRes_keeps_inv {v : Dword} {s : State} (h : s.Inv) : (writeRes v s).Inv := h

theorem writeCls_keeps_inv {c : FloatClass} {s : State} (h : s.Inv) : (writeCls c s).Inv := by
  obtain ⟨hcfg, hlen, habsent, herr, -, -, hmem⟩ := h
  exact ⟨hcfg, hlen, habsent, herr, classCode_ne_six c, classCode_ne_seven c, hmem⟩

/-- A slot write keeps the invariant when the block has the slot and the bytes fit it (R33, log 17). -/
theorem writeSlot_keeps_inv {k : SlotNum} {q : BitSeq} {s : State} (hk : k.toNat < s.cfg.nseq)
    (hq : q.length ≤ s.cfg.maxb) (h : s.Inv) : (writeSlot k q s).Inv := by
  obtain ⟨hcfg, hlen, habsent, hrest⟩ := h
  refine ⟨hcfg, fun j => ?_, fun j (hj : s.cfg.nseq ≤ j.toNat) => ?_, hrest⟩
  · rw [readSlot_writeSlot]
    split
    · exact hq
    · exact hlen j
  · have hjk : j ≠ k := fun e => absurd hk (e ▸ hj).not_gt
    rw [readSlot_writeSlot_ne hjk, habsent j hj]

/-- The reset values meet the invariant whatever the block held before. -/
theorem resetBlock_inv {s : State} (hcfg : s.cfg.Legal) (hmem : Memory.wf s.mem = true) : (resetBlock s).Inv :=
  ⟨hcfg, by simp, by simp, by simp, by simp, by simp, hmem⟩

theorem hostStore_keeps_inv {addr : Nat} {w : Width} {v : Dword} {s : State} (h : s.Inv) :
    (hostStore addr w v s).Inv := by
  obtain ⟨hcfg, hlen, habsent, herr, hcls6, hcls7, hmem⟩ := h
  exact ⟨hcfg, hlen, habsent, herr, hcls6, hcls7, by rw [hostStore_mem, memWriteBytes_wf, hmem]⟩

theorem finishCommand_keeps_inv {s : State} (h : s.Inv) : (finishCommand s).Inv := by
  obtain ⟨hcfg, hlen, habsent, herr, hcls6, hcls7, hmem⟩ := h
  exact ⟨hcfg, hlen, habsent, herr, hcls6, hcls7, by rw [finishCommand_mem, memWriteCells_wf, hmem]⟩

theorem driveRst_keeps_inv {level : Bool} {s : State} (h : s.Inv) : (driveRst level s).Inv := by
  rcases driveRst_cases level s with e | e <;> rw [e]
  · exact h
  · exact resetBlock_inv h.legal h.mem_wf

/-- Each action performed while a command waits keeps the invariant, of which the host's list is no part (log 9). -/
theorem waitUnderReset_keeps_inv {s : State} (h : s.Inv) : (waitUnderReset s).Inv := by
  unfold waitUnderReset
  split
  · exact hostStore_keeps_inv h
  · exact driveRst_keeps_inv h
  · exact h

theorem abandonStuck_keeps_inv {s t : State} {es : List HostEvent} (h : s.Inv) (ht : abandonStuck s es = some t) :
    t.Inv := by
  obtain ⟨m, rest, hm, rfl⟩ := abandonStuck_some ht
  exact resetBlock_inv h.legal ((Memory.wf_of_addresses hm).trans h.mem_wf)

/-! ### Commands -/

/-- The destination of a command the block has is one of its slots (R82, R88). -/
theorem dest_lt_nseq_of_wf {c : Config} {i : Instr} {sd : SlotNum} (hwf : i.wf c = true) (hd : i.dest? = some sd) :
    sd.toNat < c.nseq := by
  simp only [Instr.wf, hd, slotExists, Bool.and_eq_true, decide_eq_true_eq] at hwf
  exact hwf.1

theorem dest?_capvOf (w : Width) (sd : SlotNum) : (capvOf w sd).dest? = some sd := by cases w <;> rfl

/-- The least legal `MAXB` holds a captured value of any width (R11). -/
theorem length_valueBytes_le_maxb {c : Config} (hc : c.Legal) (w : Width) (v : Dword) :
    (valueBytes w v).length ≤ c.maxb := by
  have hw : widthBytes w ≤ 8 := by cases w <;> decide
  obtain ⟨-, -, hmin, -⟩ := hc
  rw [length_valueBytes]
  exact hw.trans hmin

theorem Completion.keeps_inv {i : Instr} {s t : State} (hwf : i.wf s.cfg = true) (h : s.Inv) (hc : Completion s i t) :
    t.Inv := by
  have ok : (0 : BitVec 3) ≠ 7 := by decide
  cases hc with
  | failed _ e => exact writeErr_keeps_inv (errorCode_ne_seven e) h
  | capturedMemory sd n bs reads draws hfit =>
    have hread : State.Inv { s with reads := reads, draws := draws } := h
    exact writeErr_keeps_inv ok (writeSlot_keeps_inv (dest_lt_nseq_of_wf hwf rfl) hfit hread)
  | capturedValue w sd =>
    exact writeErr_keeps_inv ok
      (writeSlot_keeps_inv (dest_lt_nseq_of_wf hwf (dest?_capvOf w sd)) (length_valueBytes_le_maxb h.legal w _) h)
  | copied sd ss =>
    exact writeErr_keeps_inv ok (writeSlot_keeps_inv (dest_lt_nseq_of_wf hwf rfl) (h.length_le ss) h)
  | returned _ v _ => exact writeErr_keeps_inv ok (writeRes_keeps_inv h)
  | returnedClass F ss v c => exact writeErr_keeps_inv ok (writeCls_keeps_inv (writeRes_keeps_inv h))

/-- A command the block has keeps the invariant. -/
theorem exec_keeps_inv {i : Instr} {s t : State} (hwf : i.wf s.cfg = true) (h : s.Inv) (ht : exec i s = .next t) :
    t.Inv :=
  (exec_completion ht).keeps_inv hwf h

/-! ### The step -/

/-- From a state with the invariant and an answer whose next state has it, `settle` leads to a state with it. -/
theorem settle_keeps_inv {s t : State} {r : Result} (h : s.Inv) (hr : ∀ u, r = .next u → u.Inv)
    (ht : settle s r = .next t) : t.Inv := by
  cases r with
  | next u =>
    cases ht
    exact finishCommand_keeps_inv (hr u rfl)
  | refused r => cases ht
  | fault r =>
    cases r
    simp only [settle] at ht
    split at ht <;> cases ht
    next ha => exact abandonStuck_keeps_inv (finishCommand_keeps_inv h) ha

/-- A word no command of the block has only sets `ERR` (R89). -/
theorem rejectIllegal_keeps_inv {s t : State} (h : s.Inv) (ht : rejectIllegal s = .next t) : t.Inv := by
  cases ht
  exact writeErr_keeps_inv (errorCode_ne_seven .illegalOp) h

theorem step_keeps_inv {s t : State} (h : s.Inv) (ht : step s = .next t) : t.Inv := by
  unfold step at ht
  split at ht
  · cases ht
    exact h
  · cases ht
    exact hostStore_keeps_inv h
  · cases ht
    exact driveRst_keeps_inv h
  next cmd opa during rest _ =>
    split at ht
    · cases ht
      exact waitUnderReset_keeps_inv h
    · have hp : (acceptCommand cmd opa during rest s).Inv := h
      dsimp only at ht
      split at ht
      next i hi =>
        obtain ⟨-, hwf⟩ := (decode_eq_instr_iff _ _ _).mp hi
        exact settle_keeps_inv hp (fun _ hu => exec_keeps_inv hwf hp hu) ht
      next => exact settle_keeps_inv hp (fun _ hu => rejectIllegal_keeps_inv hp hu) ht

/-! ### The statements -/

/-- Settles O58, by what each of the host's actions can do to the state. -/
theorem stepKeepsTheInvariant : Obligations.StepKeepsTheInvariant := fun _ _ => step_keeps_inv

/-- Settles O57: the reset state holds the reset values over legal parameters and an empty memory. -/
theorem resetMeetsTheInvariant : Obligations.ResetMeetsTheInvariant :=
  resetBlock_inv (s := State.reset) (by decide) reset_memory_wf

end Sys2Proof.Machine
end

section
/-! SUPPORT. The step, said once: its equation for each action of the host and for each answer of a command, and everything
a step that answers a next state can have done. -/

namespace Sys2Proof.Machine

/-! ### The completion around a command (R251, R256) -/

@[simp] theorem settle_next (s t : State) : settle s (.next t) = .next (finishCommand t) := rfl

@[simp] theorem settle_refused (s : State) (r : Refusal) : settle s (.refused r) = .refused r := rfl

theorem settle_stuck_of_none {s : State} (h : abandonStuck (finishCommand s) s.host = none) :
    settle s (.fault .readNotAdmitted) = .fault .readNotAdmitted := by
  simp only [settle, h]

theorem settle_stuck_of_some {s t : State} (h : abandonStuck (finishCommand s) s.host = some t) :
    settle s (.fault .readNotAdmitted) = .next t := by
  simp only [settle, h]

/-! ### One action of the host (R47, R88, R250, R256) -/

section
variable {s : State} {cmd : Word} {opa : Dword} {during : List Host.Cell} {rest : List HostEvent}

theorem step_of_no_action (hh : s.host = []) : step s = .next s := by
  simp only [step, hh]

theorem step_of_store {addr : Nat} {w : Width} {v : Dword} (hh : s.host = .store addr w v :: rest) :
    step s = .next (hostStore addr w v { s with host := rest }) := by
  simp only [step, hh]

theorem step_of_rst {level : Bool} (hh : s.host = .rst level :: rest) :
    step s = .next (driveRst level { s with host := rest }) := by
  simp only [step, hh]

theorem step_of_command_under_reset (hrst : s.rst = true) (hh : s.host = .command cmd opa during :: rest) :
    step s = .next (waitUnderReset s) := by
  simp only [step, hh, hrst, if_true]

theorem step_of_command {i : Instr} (hrst : s.rst = false) (hh : s.host = .command cmd opa during :: rest)
    (hd : decode s.cfg cmd = .instr i) :
    step s = settle (acceptCommand cmd opa during rest s) (exec i (acceptCommand cmd opa during rest s)) := by
  simp [step, hh, hrst, hd]

theorem step_of_illegal {why : Illegal} (hrst : s.rst = false) (hh : s.host = .command cmd opa during :: rest)
    (hd : decode s.cfg cmd = .illegal why) :
    step s = .next (finishCommand (raise .illegalOp (acceptCommand cmd opa during rest s))) := by
  simp [step, hh, hrst, hd, rejectIllegal]

end

/-! ### Everything a step can do -/

/-- The next states a step can answer. Which actions of the host are left is said where a command is taken; memory after an
abandoned capture is said as far as its addresses. -/
inductive Stepped (s : State) : State → Prop where
  /-- Nothing was done: the block idles, or a command waits under `RST` with nothing to perform behind it (logs 2, 9). -/
  | idle : Stepped s s
  /-- A store of the host was performed (R65, R72). -/
  | stored (addr : Nat) (w : Width) (v : Dword) (host : List HostEvent) :
    Stepped s (hostStore addr w v { s with host := host })
  /-- The host drove `RST` (R250). -/
  | droveRst (level : Bool) (host : List HostEvent) : Stepped s (driveRst level { s with host := host })
  /-- A word that is no command was taken and rejected (R89). -/
  | rejected {cmd : Word} {opa : Dword} {during : List Host.Cell} {rest : List HostEvent} {why : Illegal}
    (hrst : s.rst = false) (hh : s.host = .command cmd opa during :: rest) (hd : decode s.cfg cmd = .illegal why) :
    Stepped s (finishCommand (raise .illegalOp (acceptCommand cmd opa during rest s)))
  /-- A command was taken and completed (R256). -/
  | completed {cmd : Word} {opa : Dword} {during : List Host.Cell} {rest : List HostEvent} {i : Instr} {t : State}
    (hrst : s.rst = false) (hh : s.host = .command cmd opa during :: rest) (hd : decode s.cfg cmd = .instr i)
    (hc : Completion (acceptCommand cmd opa during rest s) i t) : Stepped s (finishCommand t)
  /-- A command was taken, got stuck and was abandoned by `RST` (R251). -/
  | abandoned {cmd : Word} {opa : Dword} {during : List Host.Cell} {rest : List HostEvent} (m : Memory)
    (left : List HostEvent) (hrst : s.rst = false) (hh : s.host = .command cmd opa during :: rest)
    (hm : m.map Prod.fst = s.mem.map Prod.fst) :
    Stepped s (resetBlock { finishCommand (acceptCommand cmd opa during rest s) with rst := true, mem := m, host := left })

/-- While a command waits, only a store or a change of `RST` behind it can be performed (log 9). -/
theorem waitUnderReset_stepped (s : State) : Stepped s (waitUnderReset s) := by
  unfold waitUnderReset
  split
  · exact .stored _ _ _ _
  · exact .droveRst _ _
  · exact .idle

theorem settle_stepped {s t : State} {cmd : Word} {opa : Dword} {during : List Host.Cell} {rest : List HostEvent}
    {i : Instr} (hrst : s.rst = false) (hh : s.host = .command cmd opa during :: rest) (hd : decode s.cfg cmd = .instr i)
    (h : settle (acceptCommand cmd opa during rest s) (exec i (acceptCommand cmd opa during rest s)) = .next t) :
    Stepped s t := by
  cases he : exec i (acceptCommand cmd opa during rest s) with
  | next u =>
    rw [he] at h
    cases h
    exact .completed hrst hh hd (exec_completion he)
  | refused r =>
    rw [he] at h
    cases h
  | fault r =>
    cases r
    cases ha : abandonStuck (finishCommand (acceptCommand cmd opa during rest s)) rest with
    | none =>
      rw [he, settle_stuck_of_none ha] at h
      cases h
    | some u =>
      rw [he, settle_stuck_of_some ha] at h
      cases h
      obtain ⟨m, left, hm, rfl⟩ := abandonStuck_some ha
      exact .abandoned m left hrst hh (hm.trans (memWriteCells_addresses _ _))

/-- The inversion of `step`: every next state of a step is one of those of `Stepped`. -/
theorem step_stepped {s t : State} (h : step s = .next t) : Stepped s t := by
  cases hh : s.host with
  | nil =>
    rw [step_of_no_action hh] at h
    cases h
    exact .idle
  | cons e rest =>
    cases e with
    | store addr w v =>
      rw [step_of_store hh] at h
      cases h
      exact .stored addr w v rest
    | rst level =>
      rw [step_of_rst hh] at h
      cases h
      exact .droveRst level rest
    | command cmd opa during =>
      cases hrst : s.rst with
      | true =>
        rw [step_of_command_under_reset hrst hh] at h
        cases h
        exact waitUnderReset_stepped s
      | false =>
        cases hd : decode s.cfg cmd with
        | illegal why =>
          rw [step_of_illegal hrst hh hd] at h
          cases h
          exact .rejected hrst hh hd
        | instr i =>
          rw [step_of_command hrst hh hd] at h
          exact settle_stepped hrst hh hd h

end Sys2Proof.Machine
end

section
/-! PROOF. What every command leaves alone (O50, O51, O52), from the completions of `exec`. -/

namespace Sys2Proof.Machine

theorem dest?_decfOf (F : FloatFormat) (ss : SlotNum) : (decfOf F ss).dest? = none := by cases F <;> rfl

section
variable {i : Instr} {s t : State}

theorem Completion.keeps_other_slots (hc : Completion s i t) {k : SlotNum} (hk : i.dest? ≠ some k) :
    readSlot t k = readSlot s k := by
  cases hc with
  | failed | returned | returnedClass => rfl
  | capturedMemory sd | copied sd =>
    have hne : k ≠ sd := fun e => hk (e ▸ rfl)
    exact readSlot_writeSlot_ne hne _ _
  | capturedValue w sd =>
    have hne : k ≠ sd := fun e => hk (e ▸ dest?_capvOf w sd)
    exact readSlot_writeSlot_ne hne _ _

/-- A command with a destination returns nothing in `RES` (R37). -/
theorem Completion.keeps_res (hc : Completion s i t) (hd : i.dest? ≠ none) : t.res = s.res := by
  cases hc with
  | failed | capturedMemory | capturedValue | copied => rfl
  | returned _ _ hnone => exact absurd hnone hd
  | returnedClass F ss => exact absurd (dest?_decfOf F ss) hd

/-- Only a float decoder classifies (R39). -/
theorem Completion.keeps_cls (hc : Completion s i t) (hi : ∀ k, i ≠ .decf32 k ∧ i ≠ .decf64 k) : t.cls = s.cls := by
  cases hc with
  | failed | capturedMemory | capturedValue | copied | returned => rfl
  | returnedClass F ss =>
    cases F with
    | binary32 => exact absurd rfl (hi ss).1
    | binary64 => exact absurd rfl (hi ss).2

/-- The registers and the record of reads are all that a completion updates (R46, R75). -/
theorem Completion.sameOutside (hc : Completion s i t) : SameOutside s t := by
  cases hc <;> exact ⟨rfl, rfl, rfl, rfl, rfl, fun _ => rfl, rfl, rfl, rfl⟩

theorem Completion.noReads (hc : Completion s i t) (hi : ∀ k n, i ≠ .capm k n) : NoReads s t := by
  cases hc with
  | capturedMemory sd n => exact absurd rfl (hi sd n)
  | failed | capturedValue | copied | returned | returnedClass => exact ⟨rfl, rfl⟩

end

/-- Settles O50: of the completions, only the captures and the copy write a slot, and it is their destination. -/
theorem onlyCapturesWriteSlots : Obligations.OnlyCapturesWriteSlots :=
  fun _ _ _ h _ hk => (exec_completion h).keeps_other_slots hk

/-- Settles O51, by which completions write `RES` and `CLS`. -/
theorem whoWritesResAndCls : Obligations.WhoWritesResAndCls :=
  fun _ _ _ h => ⟨(exec_completion h).keeps_res, (exec_completion h).keeps_cls⟩

/-- Settles O52: no completion updates anything outside the block's registers but the record of reads, and that one only
after a CAPM. -/
theorem noCommandWritesMemory : Obligations.NoCommandWritesMemory :=
  fun _ _ _ h => ⟨(exec_completion h).sameOutside, (exec_completion h).noReads⟩

end Sys2Proof.Machine
end

section
/-! PROOF. The outputs are never read (O54): each operation a command is made of answers the same at a state whose outputs
are replaced, so the two answers of every command differ only in an output the command leaves alone. -/

namespace Sys2Proof.Machine

/-- The state with other values in `ERR`, `RES` and `CLS`. -/
def withOutputs (o : Response) (s : State) : State := { s with err := o.err, res := o.res, cls := o.cls }

@[simp] theorem withOutputs_opa (o : Response) (s : State) : (withOutputs o s).opa = s.opa := rfl
@[simp] theorem readSlot_withOutputs (o : Response) (s : State) (k : SlotNum) :
    readSlot (withOutputs o s) k = readSlot s k := rfl
@[simp] theorem memRead_withOutputs (o : Response) (s : State) (a : Nat) :
    memRead (withOutputs o s) a = memRead s a := rfl
theorem noteRead_withOutputs (o : Response) (s : State) (a : Nat) :
    noteRead a (withOutputs o s) = withOutputs o (noteRead a s) := rfl

/-- A run of reads answers the same bytes, and carries the other outputs along. -/
theorem readBytes_withOutputs (o : Response) (n a : Nat) (s : State) :
    readBytes n a (withOutputs o s) =
      match readBytes n a s with
      | .next (bs, t) => .next (bs, withOutputs o t)
      | .fault r => .fault r
      | .refused r => .refused r := by
  induction n generalizing a s with
  | zero => rfl
  | succ n ih =>
    rw [readBytes, readBytes, memRead_withOutputs]
    cases memRead s a with
    | notAdmitted | sideEffects => rfl
    | byte b =>
      simp only [noteRead_withOutputs, ih]
      cases readBytes n (a + 1) (noteRead a s) <;> rfl

/-- Two answers, at `s` and at `s'`, that are the same stop, or the same next state up to a `RES` or `CLS` that each of them
keeps from its own start. -/
inductive SameAnswer (s s' : State) : Result → Result → Prop where
  | fault (f : Fault) : SameAnswer s s' (.fault f) (.fault f)
  | refused (f : Refusal) : SameAnswer s s' (.refused f) (.refused f)
  | next {t : State} {r : Dword} {c : BitVec 3} (hres : (t.res = s.res ∧ r = s'.res) ∨ r = t.res)
    (hcls : (t.cls = s.cls ∧ c = s'.cls) ∨ c = t.cls) :
    SameAnswer s s' (.next t) (.next { t with res := r, cls := c })

/-- Two answers that make the same decision first. -/
theorem SameAnswer.ite {s s' : State} {a a' b b' : Result} {p p' : Prop} [Decidable p] [Decidable p'] (hp : p ↔ p')
    (ha : SameAnswer s s' a a') (hb : SameAnswer s s' b b') :
    SameAnswer s s' (if p then a else b) (if p' then a' else b') := by
  by_cases h : p
  · rwa [if_pos h, if_pos (hp.mp h)]
  · rwa [if_neg h, if_neg (mt hp.mpr h)]

section
variable (o : Response) (s : State)

theorem sameAnswer_raise (e : ErrorKind) :
    SameAnswer s (withOutputs o s) (.next (raise e s)) (.next (raise e (withOutputs o s))) :=
  .next (r := o.res) (c := o.cls) (.inl ⟨rfl, rfl⟩) (.inl ⟨rfl, rfl⟩)

/-- A capture at a state `t` that the command's reads have reached. -/
theorem sameAnswer_writeSlot {t : State} (hres : t.res = s.res) (hcls : t.cls = s.cls) (sd : SlotNum) (q : BitSeq) :
    SameAnswer s (withOutputs o s) (.next (succeed (writeSlot sd q t)))
      (.next (succeed (writeSlot sd q (withOutputs o t)))) :=
  .next (r := o.res) (c := o.cls) (.inl ⟨hres, rfl⟩) (.inl ⟨hcls, rfl⟩)

theorem sameAnswer_writeRes (v : Dword) :
    SameAnswer s (withOutputs o s) (.next (succeed (writeRes v s))) (.next (succeed (writeRes v (withOutputs o s)))) :=
  .next (r := v) (c := o.cls) (.inr rfl) (.inl ⟨rfl, rfl⟩)

theorem sameAnswer_writeCls (v : Dword) (c : FloatClass) :
    SameAnswer s (withOutputs o s) (.next (succeed (writeCls c (writeRes v s))))
      (.next (succeed (writeCls c (writeRes v (withOutputs o s))))) :=
  .next (r := v) (c := classCode c) (.inr rfl) (.inr rfl)

/-! ### The commands -/

theorem execCapm_sameAnswer (sd : SlotNum) (n : Imm) :
    SameAnswer s (withOutputs o s) (execCapm sd n s) (execCapm sd n (withOutputs o s)) := by
  refine .ite .rfl (sameAnswer_raise o s _)
    (.ite .rfl (sameAnswer_writeSlot o s rfl rfl sd []) (.ite .rfl (sameAnswer_raise o s _) ?_))
  rw [withOutputs_opa, readBytes_withOutputs]
  cases hr : readBytes (n.toNat / 8) s.opa.toNat s with
  | fault f => exact .fault f
  | refused f => exact .refused f
  | next p =>
    obtain ⟨bs, t⟩ := p
    obtain ⟨-, ht, -⟩ := readBytes_next hr
    exact sameAnswer_writeSlot o s (by rw [ht]) (by rw [ht]) sd bs

theorem captureValue_sameAnswer (w : Width) (sd : SlotNum) :
    SameAnswer s (withOutputs o s) (captureValue w sd s) (captureValue w sd (withOutputs o s)) :=
  sameAnswer_writeSlot o s rfl rfl sd (valueBytes w s.opa)

theorem execCopy_sameAnswer (sd ss : SlotNum) :
    SameAnswer s (withOutputs o s) (execCopy sd ss s) (execCopy sd ss (withOutputs o s)) :=
  sameAnswer_writeSlot o s rfl rfl sd (readSlot s ss)

theorem execBitlen_sameAnswer (ss : SlotNum) :
    SameAnswer s (withOutputs o s) (execBitlen ss s) (execBitlen ss (withOutputs o s)) :=
  sameAnswer_writeRes o s _

theorem execGetbit_sameAnswer (ss : SlotNum) (pos : Imm) :
    SameAnswer s (withOutputs o s) (execGetbit ss pos s) (execGetbit ss pos (withOutputs o s)) :=
  .ite .rfl (sameAnswer_raise o s _) (sameAnswer_writeRes o s _)

theorem execRdbyte_sameAnswer (ss : SlotNum) (index : Imm) :
    SameAnswer s (withOutputs o s) (execRdbyte ss index s) (execRdbyte ss index (withOutputs o s)) := by
  simp only [execRdbyte, readSlot_withOutputs]
  split
  · exact sameAnswer_raise o s _
  · exact sameAnswer_writeRes o s _

theorem decodeInt_sameAnswer (w : Width) (signed : Bool) (ss : SlotNum) :
    SameAnswer s (withOutputs o s) (decodeInt w signed ss s) (decodeInt w signed ss (withOutputs o s)) :=
  .ite .rfl (sameAnswer_raise o s _) (sameAnswer_writeRes o s _)

theorem decodeFloat_sameAnswer (F : FloatFormat) (ss : SlotNum) :
    SameAnswer s (withOutputs o s) (decodeFloat F ss s) (decodeFloat F ss (withOutputs o s)) :=
  .ite .rfl (sameAnswer_raise o s _) (sameAnswer_writeCls o s _ _)

/-- Every command answers the same whatever the outputs held before (R41). -/
theorem exec_sameAnswer (i : Instr) : SameAnswer s (withOutputs o s) (exec i s) (exec i (withOutputs o s)) := by
  cases i with
  | capm sd n => exact execCapm_sameAnswer o s sd n
  | capv8 sd | capv16 sd | capv32 sd | capv64 sd => exact captureValue_sameAnswer o s _ sd
  | copy sd ss => exact execCopy_sameAnswer o s sd ss
  | bitlen ss => exact execBitlen_sameAnswer o s ss
  | getbit ss pos => exact execGetbit_sameAnswer o s ss pos
  | rdbyte ss index => exact execRdbyte_sameAnswer o s ss index
  | decu8 ss | decu16 ss | decu32 ss | decu64 ss | decs8 ss | decs16 ss | decs32 ss | decs64 ss =>
    exact decodeInt_sameAnswer o s _ _ ss
  | decf32 ss | decf64 ss => exact decodeFloat_sameAnswer o s _ ss

end

/-! ### What the same answer says -/

section
variable {s s' : State} {a a' : Result}

theorem SameAnswer.fault_iff (h : SameAnswer s s' a a') (f : Fault) : a = .fault f ↔ a' = .fault f := by
  cases h <;> simp

theorem SameAnswer.refused_iff (h : SameAnswer s s' a a') (f : Refusal) : a = .refused f ↔ a' = .refused f := by
  cases h <;> simp

/-- When one of the answers is a next state, so is the other, and they agree as O54 says. -/
theorem SameAnswer.of_next (h : SameAnswer s s' a a') {t : State} (ht : a = .next t) :
    ∃ t', a' = .next t' ∧ t'.err = t.err ∧ SameSlots t t' ∧ SameOutside t t' ∧ NoReads t t' ∧
      ((t.res = s.res ∧ t'.res = s'.res) ∨ t'.res = t.res) ∧ ((t.cls = s.cls ∧ t'.cls = s'.cls) ∨ t'.cls = t.cls) := by
  cases h with
  | fault | refused => cases ht
  | next hres hcls =>
    cases ht
    have hout : SameOutside t _ := ⟨rfl, rfl, rfl, rfl, rfl, fun _ => rfl, rfl, rfl, rfl⟩
    exact ⟨_, rfl, rfl, fun _ => rfl, hout, ⟨rfl, rfl⟩, hres, hcls⟩

end

/-- Settles O54: at a state with other outputs every command answers the same. -/
theorem outputsAreNeverRead : Obligations.OutputsAreNeverRead := by
  intro i s r e c
  have h := exec_sameAnswer ⟨e, r, c⟩ s i
  exact ⟨h.fault_iff, h.refused_iff, fun _ => h.of_next⟩

end Sys2Proof.Machine
end

section
/-! PROOF. The parameters and the admission of memory are fixed (O59), a step runs the decoded command (O6), and the reset
values (O10). -/

namespace Sys2Proof.Machine

/-- Which addresses memory admits is a matter of its addresses alone (log 5). -/
theorem memLookup_isSome_of_addresses {m m' : Memory} (h : m'.map Prod.fst = m.map Prod.fst) (a : Nat) :
    (memLookup m' a).isSome = (memLookup m a).isSome := by
  have key (n : Memory) : (memLookup n a).isSome = (n.map Prod.fst).contains a := by
    induction n with
    | nil => rfl
    | cons c cs ih =>
      by_cases hc : c.1 = a
      · simp [memLookup, hc]
      · simp [memLookup, hc, ih, Ne.symm hc]
  rw [key, key, h]

/-- The build parameters, the device regions and the listed addresses are as before: what the launch fixed (R42, R64). -/
structure SamePlatform (s t : State) : Prop where
  cfg : t.cfg = s.cfg
  devices : t.devices = s.devices
  addresses : t.mem.map Prod.fst = s.mem.map Prod.fst

theorem driveRst_samePlatform (level : Bool) (s : State) : SamePlatform s (driveRst level s) := by
  rcases driveRst_cases level s with e | e <;> rw [e] <;> exact ⟨rfl, rfl, rfl⟩

theorem Completion.samePlatform {i : Instr} {s t : State} (hc : Completion s i t) : SamePlatform s t := by
  obtain ⟨hcfg, -, -, -, hmem, -, hdev, -⟩ := hc.sameOutside
  exact ⟨hcfg, hdev, by rw [hmem]⟩

/-- The writes that land when a command completes go to listed addresses (log 11). -/
theorem SamePlatform.finishCommand {s t : State} (h : SamePlatform s t) : SamePlatform s (finishCommand t) :=
  ⟨h.cfg, h.devices, (memWriteCells_addresses _ _).trans h.addresses⟩

theorem Stepped.samePlatform {s t : State} (h : Stepped s t) : SamePlatform s t := by
  cases h with
  | idle => exact ⟨rfl, rfl, rfl⟩
  | stored => exact ⟨rfl, rfl, memWriteBytes_addresses _ _ _⟩
  | droveRst level host =>
    obtain ⟨hcfg, hdev, hmem⟩ := driveRst_samePlatform level { s with host := host }
    exact ⟨hcfg, hdev, hmem⟩
  | rejected => exact SamePlatform.finishCommand ⟨rfl, rfl, rfl⟩
  | completed _ _ _ hc =>
    obtain ⟨hcfg, hdev, hmem⟩ := hc.samePlatform
    exact SamePlatform.finishCommand ⟨hcfg, hdev, hmem⟩
  | abandoned _ _ _ _ hm => exact ⟨rfl, rfl, hm⟩

/-- Settles O59, by what a step can do: it writes bytes of memory, at addresses that are listed. -/
theorem stepKeepsParametersAndAdmission : Obligations.StepKeepsParametersAndAdmission := by
  intro s t h
  obtain ⟨hcfg, hdev, hmem⟩ := (step_stepped h).samePlatform
  exact ⟨hcfg, hdev, memLookup_isSome_of_addresses hmem⟩

/-- Settles O6, by the equation of the step at a legal command and those of the completion around it. -/
theorem stepRunsDecodedCommand : Obligations.StepRunsDecodedCommand := by
  intro s cmd opa during rest i hrst hh hd p
  have hstep : step s = settle p (exec i p) := step_of_command hrst hh hd
  refine ⟨hstep, fun t he => ?_, fun r he => ?_, fun he => ⟨fun ha => ?_, fun t ha => ?_⟩⟩
  · rw [hstep, he, settle_next]
  · rw [hstep, he, settle_refused]
  · rw [hstep, he, settle_stuck_of_none ha]
  · rw [hstep, he, settle_stuck_of_some ha]

/-- Settles O10, by the values of the reset state. -/
theorem resetValues : Obligations.ResetValues := ⟨readSlot_reset, rfl, rfl, rfl⟩

end Sys2Proof.Machine
end

section
/-! PROOF. The memory port and the host's stores (O9, O14, O15). -/

namespace Sys2Proof.Machine

/-! ### A read of the memory port (R64, R68, R73) -/

section
variable {s : State} {a : Nat}

theorem memRead_of_out_of_range (h : 2 ^ s.cfg.addrW ≤ a) : memRead s a = .notAdmitted := by
  simp [memRead, h.not_gt]

theorem memRead_of_unlisted (hd : isDevice s.devices a = false) (hm : memLookup s.mem a = none) :
    memRead s a = .notAdmitted := by
  simp [memRead, hd, hm]

theorem memRead_of_device (ha : a < 2 ^ s.cfg.addrW) (hd : isDevice s.devices a = true) :
    memRead s a = .sideEffects := by
  simp [memRead, ha, hd]

/-- With no race there is nothing to draw from but the byte in memory (R64). -/
theorem memRead_of_no_race {b : Byte} (ha : a < 2 ^ s.cfg.addrW) (hd : isDevice s.devices a = false)
    (hm : memLookup s.mem a = some b) (hr : racedBytes s.during a = []) : memRead s a = .byte b := by
  simp [memRead, ha, hd, hm, hr, drawByte]

end

/-! ### A store of the host (R65, R71) -/

/-- A stored byte reads back, where memory admits its address. -/
theorem memLookup_hostStore {s : State} {a j : Nat} {w : Width} (v : Dword) (hj : j < widthBytes w)
    (ha : Admits s (a + j)) :
    memLookup (hostStore a w v s).mem (a + j) = (layoutBytes s.cfg.hostOrder w v)[j]? := by
  obtain ⟨-, -, hlisted⟩ := ha
  obtain ⟨b, hb⟩ := Option.isSome_iff_exists.mp hlisted
  simp [memLookup_memWriteBytes, hb, hj]

theorem memLookup_hostStore_outside {s : State} {a a' : Nat} {w : Width} (v : Dword)
    (h : ¬ (a ≤ a' ∧ a' < a + widthBytes w)) :
    memLookup (hostStore a w v s).mem a' = memLookup s.mem a' := by
  simp [memLookup_memWriteBytes, h]

/-- A store changes the bytes of memory, not which addresses it admits (log 5). -/
theorem admits_hostStore_iff (s : State) (a a' : Nat) (w : Width) (v : Dword) :
    Admits (hostStore a w v s) a' ↔ Admits s a' := by
  simp [Admits, memLookup_isSome_memWriteBytes]

/-- In a value of one byte the two byte orders agree (R65). -/
theorem layoutBytes_w8 (o : ByteOrder) (v : Dword) : layoutBytes o .w8 v = [v.extractLsb' 0 8] := by
  cases o <;> rfl

/-- Settles O15: an admitted read answers a byte, and what a read answers is one the address held. -/
theorem racedReadAnswersAHeldByte : Obligations.RacedReadAnswersAHeldByte := by
  intro s a ha
  obtain ⟨b, hb⟩ := (memRead_byte_iff s a).mpr ha
  exact ⟨b, hb, heldByte_of_memRead hb⟩

/-- Settles O9, by the step's equation for a store and the reads of memory after it. -/
theorem hostStoreKeepsTheBlock : Obligations.HostStoreKeepsTheBlock := by
  intro s addr w v rest hh
  exact ⟨_, step_of_store hh, fun _ => rfl, rfl, rfl, rfl, rfl, rfl, rfl,
    fun _ ha => memLookup_hostStore_outside v ha⟩

/-- Settles O14, by the cases of the memory port; the last clause reads a stored byte back through the third. -/
theorem memReadAnswers : Obligations.MemReadAnswers := by
  intro s a
  refine ⟨memRead_of_out_of_range, memRead_of_unlisted, fun b => memRead_of_no_race, fun v hadm hr => ?_⟩
  obtain ⟨ha, hd, -⟩ := (admits_hostStore_iff s a a .w8 v).mpr hadm
  refine memRead_of_no_race ha hd ?_ hr
  simpa [layoutBytes_w8] using memLookup_hostStore (j := 0) (w := .w8) v (by decide) hadm

end Sys2Proof.Machine
end

section
/-! PROOF. CAPM over memory (O16, O17, O21, O22, O23): past its checks it answers what its reads answer. -/

namespace Sys2Proof.Machine

/-- A run of reads is refused at the first address in a device region, whatever was read before it (R68). -/
theorem readBytes_refused {n a j : Nat} {s : State} (hj : j < n) (hb : ∀ k, k < j → Admits s (a + k))
    (hs : memRead s (a + j) = .sideEffects) : readBytes n a s = .refused .sideEffectRead := by
  induction n generalizing a s j with
  | zero => omega
  | succ n ih =>
    cases j with
    | zero => simp only [Nat.add_zero] at hs; simp only [readBytes, hs]
    | succ j =>
      obtain ⟨b, hb0⟩ := (memRead_byte_iff s a).mpr (hb 0 (by omega))
      have hshift (k : Nat) : a + 1 + k = a + (k + 1) := by omega
      have hrest : readBytes n (a + 1) (noteRead a s) = .refused .sideEffectRead := by
        refine ih (j := j) (by omega) (fun k hk => ?_) ?_
        · rw [hshift]; exact hb (k + 1) (by omega)
        · rwa [memRead_noteRead_sideEffects, hshift]
      simp only [readBytes, hb0, hrest]

/-! ### CAPM past its checks (R227) -/

section
variable {sd : SlotNum} {len : Imm} {s : State}
variable (h8 : len.toNat % 8 = 0) (hptr : s.opa ≠ 0) (hcap : len.toNat / 8 ≤ s.cfg.maxb)
include h8 hptr hcap

/-- Past the checks of R227, CAPM answers as its reads do. -/
theorem execCapm_reads :
    (∃ bs t, readBytes (len.toNat / 8) s.opa.toNat s = .next (bs, t) ∧
      execCapm sd len s = .next (writeErr 0 (writeSlot sd bs t))) ∨
    (∃ r, readBytes (len.toNat / 8) s.opa.toNat s = .fault r ∧ execCapm sd len s = .fault r) ∨
    (∃ r, readBytes (len.toNat / 8) s.opa.toNat s = .refused r ∧ execCapm sd len s = .refused r) := by
  rcases execCapm_cases sd len s with ⟨h, -⟩ | ⟨-, h, -⟩ | ⟨-, -, h, -⟩ | ⟨-, -, -, h⟩
  · exact absurd h8 h
  · exact absurd h hptr
  · exact absurd hcap h.not_ge
  · exact h

theorem execCapm_of_reads_next {bs : List Byte} {t : State}
    (hr : readBytes (len.toNat / 8) s.opa.toNat s = .next (bs, t)) :
    execCapm sd len s = .next (writeErr 0 (writeSlot sd bs t)) := by
  rcases execCapm_reads (sd := sd) h8 hptr hcap with ⟨_, _, h, e⟩ | ⟨_, h, -⟩ | ⟨_, h, -⟩ <;>
    rw [hr] at h <;> cases h
  exact e

theorem execCapm_of_reads_fault {r : Fault} (hr : readBytes (len.toNat / 8) s.opa.toNat s = .fault r) :
    execCapm sd len s = .fault r := by
  rcases execCapm_reads (sd := sd) h8 hptr hcap with ⟨_, _, h, -⟩ | ⟨_, h, e⟩ | ⟨_, h, -⟩ <;>
    rw [hr] at h <;> cases h
  exact e

theorem execCapm_of_reads_refused {r : Refusal} (hr : readBytes (len.toNat / 8) s.opa.toNat s = .refused r) :
    execCapm sd len s = .refused r := by
  rcases execCapm_reads (sd := sd) h8 hptr hcap with ⟨_, _, h, -⟩ | ⟨_, h, -⟩ | ⟨_, h, e⟩ <;>
    rw [hr] at h <;> cases h
  exact e

end

/-- A CAPM through a non-null pointer that succeeds captured what its reads gave (R110). -/
theorem execCapm_success {sd : SlotNum} {len : Imm} {s t : State} (hptr : s.opa ≠ 0)
    (h : execCapm sd len s = .next t) (herr : t.err = 0) :
    ∃ bs u, readBytes (len.toNat / 8) s.opa.toNat s = .next (bs, u) ∧ t = writeErr 0 (writeSlot sd bs u) := by
  rcases execCapm_cases sd len s with ⟨-, e⟩ | ⟨-, hnull, -⟩ | ⟨-, -, -, e⟩ |
    ⟨-, -, -, ⟨bs, u, hr, e⟩ | ⟨r, -, e⟩ | ⟨r, -, e⟩⟩
  · rw [e] at h; cases h; cases herr
  · exact absurd hnull hptr
  · rw [e] at h; cases h; cases herr
  · rw [e] at h; cases h; exact ⟨bs, u, hr, rfl⟩
  · rw [e] at h; cases h
  · rw [e] at h; cases h

/-- With no other writer a held byte is the one in memory (R73). -/
theorem memLookup_of_heldByte {s : State} {a : Nat} {b : Byte} (hd : s.during = []) (h : HeldByte s a b) :
    memLookup s.mem a = some b := by
  simpa [HeldByte, hd, racedBytes] using h

theorem exec_capvOf (w : Width) (sd : SlotNum) (s : State) :
    exec (capvOf w sd) s = .next (writeErr 0 (writeSlot sd (valueBytes w s.opa) s)) := by
  cases w <;> rfl

/-- `W` fits the immediate (R85). -/
theorem toNat_ofNat_widthBits (w : Width) : (BitVec.ofNat 16 (widthBits w)).toNat = widthBytes w * 8 := by
  cases w <;> rfl

/-! ### The statements -/

/-- Settles O16: the reads complete because memory admits each, and what they did is all that a run of reads can do. -/
theorem capmCaptures : Obligations.CapmCaptures := by
  intro sd len s h8 hptr hcap hadm
  obtain ⟨bs, u, hr⟩ := readBytes_completes hadm
  have hexec : exec (.capm sd len) s = .next (writeErr 0 (writeSlot sd bs u)) :=
    execCapm_of_reads_next h8 hptr hcap hr
  obtain ⟨hlen, rfl, hbytes⟩ := readBytes_next hr
  have hframe := exec_completion hexec
  refine ⟨bs, _, hexec, hlen, ⟨by simp, rfl, fun k hk => ?_, rfl, rfl, hframe.sameOutside⟩, fun j b hb => ?_, rfl, rfl⟩
  · exact readSlot_writeSlot_ne hk _ _
  · obtain ⟨hj, -⟩ := List.getElem?_eq_some_iff.mp hb
    exact (hbytes j (hlen ▸ hj)).2 b hb

/-- Settles O17: each captured byte is one its address held, and with no other writer that is the byte in memory. -/
theorem capmBytesInAddressOrder : Obligations.CapmBytesInAddressOrder := by
  intro sd len s t hptr hduring hexec herr
  obtain ⟨bs, u, hr, rfl⟩ := execCapm_success hptr hexec herr
  obtain ⟨hlen, -, hbytes⟩ := readBytes_next hr
  rw [readSlot_writeErr, readSlot_writeSlot_same]
  refine ⟨hlen, fun j hj => ?_⟩
  have hb : bs[j]? = some (bs[j]'(hlen ▸ hj)) := List.getElem?_eq_getElem _
  rw [hb, memLookup_of_heldByte hduring ((hbytes j hj).2 _ hb)]

/-- Settles O21, by the run of reads that stops at the first one not admitted. -/
theorem capmStuckHasNoStep : Obligations.CapmStuckHasNoStep := by
  intro sd len s j h8 hptr hcap hj hadm hread
  have hexec : exec (.capm sd len) s = .fault .readNotAdmitted :=
    execCapm_of_reads_fault h8 hptr hcap (readBytes_stuck hj hadm hread)
  exact ⟨hexec, fun hnone => by rw [hexec, settle_stuck_of_none hnone]⟩

/-- Settles O22, by the run of reads that is refused at the first address of a device region. -/
theorem capmOfDeviceRegionRefused : Obligations.CapmOfDeviceRegionRefused := by
  intro sd len s j h8 hptr hcap hj hadm hrange hdev
  exact execCapm_of_reads_refused h8 hptr hcap (readBytes_refused hj hadm (memRead_of_device hrange hdev))

/-- A value the host stores at a pointer and CAPM captures from there is the slot of the bytes the host laid out (R62,
R65). -/
theorem capm_of_hostStore {s : State} {sd : SlotNum} {w : Width} {v ptr : Dword} (hlegal : s.cfg.Legal) (hptr : ptr ≠ 0)
    (hadm : ∀ j, j < widthBytes w → Admits s (ptr.toNat + j)) :
    ∃ t, exec (.capm sd (BitVec.ofNat 16 (widthBits w)))
        { hostStore ptr.toNat w v s with opa := ptr, during := [] } = .next t ∧
      t.err = 0 ∧ readSlot t sd = layoutBytes s.cfg.hostOrder w v := by
  have hlen : (BitVec.ofNat 16 (widthBits w)).toNat / 8 = widthBytes w := by
    rw [toNat_ofNat_widthBits, Nat.mul_div_cancel _ (by decide)]
  have h8 : (BitVec.ofNat 16 (widthBits w)).toNat % 8 = 0 := by
    rw [toNat_ofNat_widthBits, Nat.mul_mod_left]
  have hcap : widthBytes w ≤ s.cfg.maxb := length_valueBytes w v ▸ length_valueBytes_le_maxb hlegal w v
  obtain ⟨-, t, hexec, -, ⟨-, herr, -⟩, -⟩ := capmCaptures sd (BitVec.ofNat 16 (widthBits w))
    { hostStore ptr.toNat w v s with opa := ptr, during := [] } h8 hptr (hlen.trans_le hcap)
    (fun j hj => (admits_hostStore_iff s ptr.toNat _ w v).mpr (hadm j (hlen ▸ hj)))
  obtain ⟨hsize, hbytes⟩ := capmBytesInAddressOrder sd _ _ t hptr rfl hexec herr
  rw [hlen] at hsize hbytes
  refine ⟨t, hexec, herr, List.ext_getElem? fun j => ?_⟩
  by_cases hj : j < widthBytes w
  · exact (hbytes j hj).trans (memLookup_hostStore v hj (hadm j hj))
  · rw [List.getElem?_eq_none (by omega), List.getElem?_eq_none (by simpa using hj)]

/-- Settles O23: CAPM captures the bytes as the host laid them out, and CAPV's slot is the little-endian layout. -/
theorem storedValueCapturedInHostOrder : Obligations.StoredValueCapturedInHostOrder := by
  intro s sd w v ptr hlegal hptr hadm
  obtain ⟨t, hexec, herr, hslot⟩ := capm_of_hostStore (sd := sd) (v := v) hlegal hptr hadm
  have hcapv := exec_capvOf w sd { s with opa := v }
  refine ⟨t, _, hexec, hcapv, herr, rfl, fun ho => ?_, fun ho => ?_⟩
  · simp [hslot, ho, layoutBytes]
  · simp [hslot, ho, layoutBytes]

end Sys2Proof.Machine
end

section
/-! PROOF. The encoding of commands: which words the decoder reads as a command (O1, O2, O5), that the opcode map of R87
says the same (O3), and the words of the spec's vectors (O4). -/

namespace Sys2Proof

/-! ### The decoder's answer and a command's fields (R80 to R88) -/

/-- Equality of fields, with the two fields that the decoder matches on as numbers. -/
theorem CmdFields.eq_iff {f g : CmdFields} :
    f = g ↔ f.opc.toNat = g.opc.toNat ∧ f.sd = g.sd ∧ f.ss = g.ss ∧ f.fn.toNat = g.fn.toNat ∧ f.imm = g.imm := by
  cases f; cases g
  simp [BitVec.toNat_eq]

theorem requireFixed_eq_instr_iff {fixed : Bool} {i j : Instr} :
    requireFixed fixed i = .instr j ↔ fixed = true ∧ i = j := by
  cases fixed <;> simp [requireFixed]

/-- The fields of a command are read as that command. -/
@[simp] theorem decodeFields_encodeFields (i : Instr) : decodeFields (encodeFields i) = .instr i := by
  cases i <;> rfl

theorem encodeFields_of_decodeCapv {f : CmdFields} {i : Instr} (hopc : f.opc.toNat = 0x02)
    (h : decodeCapv f = .instr i) : encodeFields i = f := by
  unfold decodeCapv at h
  split at h
  next hfixed =>
    split at h <;> cases h
    all_goals next hfn => simp [CmdFields.eq_iff, encodeFields, hopc, hfixed, hfn]
  next => cases h

theorem encodeFields_of_decodeDecint {f : CmdFields} {i : Instr} (hopc : f.opc.toNat = 0x10)
    (h : decodeDecint f = .instr i) : encodeFields i = f := by
  unfold decodeDecint at h
  split at h
  next hfixed =>
    split at h <;> cases h
    all_goals next hfn => simp [CmdFields.eq_iff, encodeFields, hopc, hfixed, hfn]
  next => cases h

/-- Fields that are read as a command are that command's fields. -/
theorem encodeFields_of_decodeFields {f : CmdFields} {i : Instr} (h : decodeFields f = .instr i) : encodeFields i = f := by
  unfold decodeFields at h
  split at h
  case h_2 hopc => exact encodeFields_of_decodeCapv hopc h
  case h_7 hopc => exact encodeFields_of_decodeDecint hopc h
  case h_10 => cases h
  all_goals
    next hopc =>
      obtain ⟨hfixed, rfl⟩ := requireFixed_eq_instr_iff.mp h
      simp only [Bool.and_eq_true, beq_iff_eq] at hfixed
      simp [CmdFields.eq_iff, encodeFields, hopc, hfixed]

/-- A word is read as a command exactly when it is that command's word and the block has the command (R87, R88). -/
theorem decode_eq_instr_iff_encode {c : Config} {w : Word} {i : Instr} :
    decode c w = .instr i ↔ encode i = w ∧ i.wf c = true := by
  rw [decode_eq_instr_iff]
  refine and_congr_left fun _ => ⟨fun h => ?_, fun h => ?_⟩
  · rw [encode, encodeFields_of_decodeFields h, CmdFields.word_ofWord]
  · rw [← h, encode, CmdFields.ofWord_word, decodeFields_encodeFields]

/-- A command's word on a block that may lack the command (R88 step 3). -/
theorem decode_encode (c : Config) (i : Instr) :
    decode c (encode i) = if i.wf c = true then .instr i else .illegal .absentSlot := by
  simp [decode, encode, checkSlots]

/-- No two commands have the same word (R91). -/
theorem encode_injective {i j : Instr} (h : encode i = encode j) : i = j := by
  have hfields : encodeFields i = encodeFields j := by
    simpa only [encode, CmdFields.ofWord_word] using congrArg CmdFields.ofWord h
  have hdecoded : decodeFields (encodeFields i) = decodeFields (encodeFields j) := by rw [hfields]
  simpa using hdecoded

/-- Settles O1: the word's fields are the command's, and they are read as that command. -/
theorem decodeOfEncode : Obligations.DecodeOfEncode :=
  fun _ _ hwf => decode_eq_instr_iff_encode.mpr ⟨rfl, hwf⟩

/-- Settles O2, by the inversion of the decoder: fields that are read as a command are its own. -/
theorem encodeOfDecode : Obligations.EncodeOfDecode :=
  fun _ _ _ => decode_eq_instr_iff_encode.mp

/-- Settles O4: each word is the word of its command, and every command named has its slots among the four. -/
theorem specWordsDecode : Obligations.SpecWordsDecode := by
  simp only [Obligations.SpecWordsDecode, decode_eq_instr_iff_encode]
  decide

/-! ### The reserved encodings (R89) -/

/-- The source of a command the block has is one of its slots (R82, R88). -/
theorem source_lt_nseq_of_wf {c : Config} {i : Instr} {ss : SlotNum} (hwf : i.wf c = true) (hs : i.source? = some ss) :
    ss.toNat < c.nseq := by
  simp only [Instr.wf, hs, slotExists, Bool.and_eq_true, decide_eq_true_eq] at hwf
  exact hwf.2

/-! What the word of every command has in the fields that R81 to R85 fix for its opcode. -/

section
variable (i : Instr)

theorem opc_encodeFields_mem :
    (encodeFields i).opc.toNat ∈ [0x01, 0x02, 0x03, 0x04, 0x05, 0x06, 0x10, 0x20, 0x21] := by
  cases i <;> simp [encodeFields]

theorem ss_encodeFields : (encodeFields i).opc.toNat ∈ [0x01, 0x02] → (encodeFields i).ss = 0 := by
  cases i <;> simp [encodeFields]

theorem sd_encodeFields :
    (encodeFields i).opc.toNat ∈ [0x04, 0x05, 0x06, 0x10, 0x20, 0x21] → (encodeFields i).sd = 0 := by
  cases i <;> simp [encodeFields]

theorem fn_encodeFields :
    (encodeFields i).opc.toNat ∈ [0x01, 0x03, 0x04, 0x05, 0x06, 0x20, 0x21] → (encodeFields i).fn = 0 := by
  cases i <;> simp [encodeFields]

theorem imm_encodeFields :
    (encodeFields i).opc.toNat ∈ [0x02, 0x03, 0x04, 0x10, 0x20, 0x21] → (encodeFields i).imm = 0 := by
  cases i <;> simp [encodeFields]

theorem fn_encodeFields_capv_lt : (encodeFields i).opc.toNat = 0x02 → (encodeFields i).fn.toNat < 4 := by
  cases i <;> simp [encodeFields]

theorem fn_encodeFields_decint_lt : (encodeFields i).opc.toNat = 0x10 → (encodeFields i).fn.toNat < 8 := by
  cases i <;> simp [encodeFields]

theorem dest?_eq_sd : (encodeFields i).opc.toNat ∈ [0x01, 0x02, 0x03] → i.dest? = some (encodeFields i).sd := by
  cases i <;> simp [encodeFields, Instr.dest?]

theorem source?_eq_ss :
    (encodeFields i).opc.toNat ∈ [0x03, 0x04, 0x05, 0x06, 0x10, 0x20, 0x21] → i.source? = some (encodeFields i).ss := by
  cases i <;> simp [encodeFields, Instr.source?]

end

/-- Settles O5: a word that decodes to a command has that command's fields, and each clause denies one thing they have. -/
theorem reservedEncodingsAreIllegal : Obligations.ReservedEncodingsAreIllegal := by
  intro c w
  cases hd : decode c w with
  | illegal why => simp
  | instr i =>
    obtain ⟨rfl, hwf⟩ := decode_eq_instr_iff_encode.mp hd
    rw [encode, CmdFields.ofWord_word]
    refine ⟨fun ho => absurd (opc_encodeFields_mem i) ho, fun ho hss => absurd (ss_encodeFields i ho) hss,
      fun ho hsd => absurd (sd_encodeFields i ho) hsd, fun ho hfn => absurd (fn_encodeFields i ho) hfn,
      fun ho himm => absurd (imm_encodeFields i ho) himm, fun ho hfn => absurd (fn_encodeFields_capv_lt i ho) hfn.not_gt,
      fun ho hfn => absurd (fn_encodeFields_decint_lt i ho) hfn.not_gt, fun ho hsd => ?_, fun ho hss => ?_⟩
    · exact absurd (Machine.dest_lt_nseq_of_wf hwf (dest?_eq_sd i ho)) hsd.not_gt
    · exact absurd (source_lt_nseq_of_wf hwf (source?_eq_ss i ho)) hss.not_gt

/-! ### The opcode map (R87) -/

/-- A row's mask and match act on each field apart. -/
theorem OpcodeRow.admits_word_iff (r : OpcodeRow) (f : CmdFields) :
    r.admits f.word = true ↔
      f.opc &&& (CmdFields.ofWord r.mask).opc = (CmdFields.ofWord r.value).opc ∧
      f.sd &&& (CmdFields.ofWord r.mask).sd = (CmdFields.ofWord r.value).sd ∧
      f.ss &&& (CmdFields.ofWord r.mask).ss = (CmdFields.ofWord r.value).ss ∧
      f.fn &&& (CmdFields.ofWord r.mask).fn = (CmdFields.ofWord r.value).fn ∧
      f.imm &&& (CmdFields.ofWord r.mask).imm = (CmdFields.ofWord r.value).imm := by
  have hword : r.admits f.word = true ↔ CmdFields.ofWord (f.word &&& r.mask) = CmdFields.ofWord r.value := by
    refine ⟨fun h => congrArg _ (by simpa [OpcodeRow.admits] using h), fun h => ?_⟩
    simpa [OpcodeRow.admits] using congrArg CmdFields.word h
  rw [hword]
  conv_rhs => rw [← f.ofWord_word]
  simp only [CmdFields.ofWord, CmdFields.mk.injEq, BitVec.extractLsb'_and]

/-- Every command's word is admitted by the row of its mnemonic. -/
theorem exists_row_of_encode (i : Instr) : ∃ r ∈ opcodeMap, r.mnemonic = i.mnemonic ∧ r.admits (encode i) = true := by
  cases i <;> simp [opcodeMap, Instr.mnemonic, encode, encodeFields, OpcodeRow.admits_word_iff, CmdFields.ofWord]

/-- Fields with a row's fixed bits are read as a command of that row. -/
theorem decodeFields_of_admits {r : OpcodeRow} {f : CmdFields} (hr : r ∈ opcodeMap) (h : r.admits f.word = true) :
    ∃ i, decodeFields f = .instr i ∧ i.mnemonic = r.mnemonic := by
  have hopc : f.opc &&& 255#8 = f.opc := BitVec.and_allOnes
  have hsd : f.sd &&& 3#2 = f.sd := BitVec.and_allOnes
  have hss : f.ss &&& 3#2 = f.ss := BitVec.and_allOnes
  have hfn : f.fn &&& 15#4 = f.fn := BitVec.and_allOnes
  have himm : f.imm &&& 65535#16 = f.imm := BitVec.and_allOnes
  rw [OpcodeRow.admits_word_iff] at h
  fin_cases hr
  all_goals
    simp only [CmdFields.ofWord, BitVec.ofNat_eq_ofNat, BitVec.reduceExtractLsb', BitVec.and_zero, hopc, hsd, hss, hfn,
      himm, and_true, true_and] at h
    simp [decodeFields, decodeCapv, decodeDecint, requireFixed, Instr.mnemonic, h]

theorem mnemonic_injOn_opcodeMap : ∀ r ∈ opcodeMap, ∀ r' ∈ opcodeMap, r.mnemonic = r'.mnemonic → r = r' := by
  decide

/-- A row of the opcode map admits exactly the words of its command (R87). -/
theorem admits_iff_exists_encode {r : OpcodeRow} (hr : r ∈ opcodeMap) (w : Word) :
    r.admits w = true ↔ ∃ i, i.mnemonic = r.mnemonic ∧ encode i = w := by
  constructor
  · intro h
    rw [← CmdFields.word_ofWord w] at h
    obtain ⟨i, hi, hm⟩ := decodeFields_of_admits hr h
    exact ⟨i, hm, by rw [encode, encodeFields_of_decodeFields hi, CmdFields.word_ofWord]⟩
  · rintro ⟨i, hm, rfl⟩
    obtain ⟨r', hr', hm', h⟩ := exists_row_of_encode i
    rwa [mnemonic_injOn_opcodeMap r hr r' hr' (hm.symm.trans hm'.symm)]

/-- Settles O3: a row admits just the words of its command, and no two commands share a word. -/
theorem decoderFollowsOpcodeMap : Obligations.DecoderFollowsOpcodeMap := by
  intro c w
  refine ⟨fun r hr r' hr' h h' => ?_, fun hnone => ?_, fun r hr h => ?_⟩
  · obtain ⟨i, hm, rfl⟩ := (admits_iff_exists_encode hr w).mp h
    obtain ⟨j, hm', hj⟩ := (admits_iff_exists_encode hr' _).mp h'
    rw [encode_injective hj] at hm'
    exact mnemonic_injOn_opcodeMap r hr r' hr' (hm.symm.trans hm')
  · cases hd : decode c w with
    | illegal why => exact ⟨why, rfl⟩
    | instr i =>
      obtain ⟨rfl, -⟩ := decode_eq_instr_iff_encode.mp hd
      obtain ⟨r, hr, -, h⟩ := exists_row_of_encode i
      rw [hnone r hr] at h
      cases h
  · obtain ⟨i, hm, rfl⟩ := (admits_iff_exists_encode hr w).mp h
    exact ⟨i, hm, rfl, decode_encode c i⟩

end Sys2Proof
end

section
/-! PROOF. The operand and the illegal word: `OPA` is read by CAPM and CAPV alone (O55), and a word that is no command
changes `ERR` alone (O7). -/

namespace Sys2Proof.Machine

/-! ### Another operand on the port (R86) -/

/-- The state with another value in `OPA`. -/
def withOpa (v : Dword) (s : State) : State := { s with opa := v }

/-- The answer with another value in `OPA` of its next state. -/
def Result.withOpa (v : Dword) : Result → Result
  | .next t => .next (Machine.withOpa v t)
  | .fault f => .fault f
  | .refused f => .refused f

@[simp] theorem readSlot_withOpa (v : Dword) (s : State) (k : SlotNum) : readSlot (withOpa v s) k = readSlot s k := rfl

section
variable (v : Dword) (s : State)

theorem execCopy_withOpa (sd ss : SlotNum) :
    execCopy sd ss (withOpa v s) = Result.withOpa v (execCopy sd ss s) := rfl

theorem execBitlen_withOpa (ss : SlotNum) :
    execBitlen ss (withOpa v s) = Result.withOpa v (execBitlen ss s) := rfl

theorem execGetbit_withOpa (ss : SlotNum) (pos : Imm) :
    execGetbit ss pos (withOpa v s) = Result.withOpa v (execGetbit ss pos s) := by
  unfold execGetbit
  rw [apply_ite (Result.withOpa v)]
  rfl

theorem execRdbyte_withOpa (ss : SlotNum) (index : Imm) :
    execRdbyte ss index (withOpa v s) = Result.withOpa v (execRdbyte ss index s) := by
  simp only [execRdbyte, readSlot_withOpa]
  cases (readSlot s ss)[index.toNat]? <;> rfl

theorem decodeInt_withOpa (w : Width) (signed : Bool) (ss : SlotNum) :
    decodeInt w signed ss (withOpa v s) = Result.withOpa v (decodeInt w signed ss s) := by
  unfold decodeInt
  rw [apply_ite (Result.withOpa v)]
  rfl

theorem decodeFloat_withOpa (F : FloatFormat) (ss : SlotNum) :
    decodeFloat F ss (withOpa v s) = Result.withOpa v (decodeFloat F ss s) := by
  unfold decodeFloat
  rw [apply_ite (Result.withOpa v)]
  rfl

/-- A command that is neither CAPM nor CAPV answers the same whatever the operand (R86). -/
theorem exec_withOpa {i : Instr} (hm : ∀ k n, i ≠ .capm k n) (hv : ∀ w k, i ≠ capvOf w k) :
    exec i (withOpa v s) = Result.withOpa v (exec i s) := by
  cases i with
  | capm sd n => exact absurd rfl (hm sd n)
  | capv8 sd => exact absurd rfl (hv .w8 sd)
  | capv16 sd => exact absurd rfl (hv .w16 sd)
  | capv32 sd => exact absurd rfl (hv .w32 sd)
  | capv64 sd => exact absurd rfl (hv .w64 sd)
  | copy sd ss => exact execCopy_withOpa v s sd ss
  | bitlen ss => exact execBitlen_withOpa v s ss
  | getbit ss pos => exact execGetbit_withOpa v s ss pos
  | rdbyte ss index => exact execRdbyte_withOpa v s ss index
  | decu8 ss | decu16 ss | decu32 ss | decu64 ss | decs8 ss | decs16 ss | decs32 ss | decs64 ss =>
    exact decodeInt_withOpa v s _ _ ss
  | decf32 ss | decf64 ss => exact decodeFloat_withOpa v s _ ss

end

/-- The bytes of a value of width `W` are those of its low `W` bits (R63). -/
theorem valueBytes_congr {w : Width} {v v' : Dword} (h : v.setWidth (widthBits w) = v'.setWidth (widthBits w)) :
    valueBytes w v = valueBytes w v' := by
  refine List.map_congr_left fun i hi => ?_
  have hbyte : 8 * i + 8 ≤ widthBits w := by
    have := List.mem_range.mp hi
    rw [widthBits_eq]
    omega
  rw [← BitVec.extractLsb'_setWidth_of_le hbyte, h, BitVec.extractLsb'_setWidth_of_le hbyte]

/-- Settles O55: the other commands answer the same at any operand, and CAPV takes only the bytes of its width. -/
theorem unusedOperandIsIgnored : Obligations.UnusedOperandIsIgnored := by
  refine ⟨fun i s t v hm hv h => ?_, fun w k s t v hlow h => ?_⟩
  · exact (exec_withOpa v s hm hv).trans (congrArg (Result.withOpa v) h)
  · rw [exec_capvOf] at h ⊢
    cases h
    rw [valueBytes_congr (v := v) hlow]
    rfl

/-- Settles O7, by the equation of the step at an illegal word. -/
theorem illegalWordSetsErrOnly : Obligations.IllegalWordSetsErrOnly := by
  intro s cmd opa during rest why hrst hh hd
  exact ⟨_, step_of_illegal hrst hh hd, rfl, fun _ => rfl, rfl, rfl, rfl, rfl, rfl, rfl, rfl⟩

end Sys2Proof.Machine
end

section
/-! PROOF. The sequence commands: CAPM at the checks that come before its reads (O18, O19, O20), CAPV (O24, O25), COPY (O26,
O27) and the inspection of a slot (O28, O29, O30). -/

namespace Sys2Proof.Machine

/-! ### The words (R80, R87) -/

theorem ofWord_encode (i : Instr) : CmdFields.ofWord (encode i) = encodeFields i := CmdFields.ofWord_word _

/-- A command's word has the fixed bits of its row of the opcode map (R87). -/
theorem encode_and_mask {i : Instr} {r : OpcodeRow} (hr : r ∈ opcodeMap) (hm : i.mnemonic = r.mnemonic) :
    encode i &&& r.mask = r.value := by
  have hadmits : r.admits (encode i) = true := (admits_iff_exists_encode hr _).mpr ⟨i, hm, rfl⟩
  simpa [OpcodeRow.admits] using hadmits

/-! ### The shapes of an answer -/

theorem sameOutside_refl (s : State) : SameOutside s s :=
  ⟨rfl, rfl, rfl, rfl, rfl, fun _ => rfl, rfl, rfl, rfl⟩

theorem failedWith_writeErr (e : ErrorKind) (s : State) : FailedWith e s (writeErr (errorCode e) s) :=
  ⟨rfl, fun _ => rfl, rfl, rfl, sameOutside_refl s, rfl, rfl⟩

theorem captured_writeSlot (sd : SlotNum) (q : BitSeq) (s : State) : Captured sd q s (writeErr 0 (writeSlot sd q s)) :=
  ⟨readSlot_writeSlot_same sd q s, rfl, fun _ hk => readSlot_writeSlot_ne hk q s, rfl, rfl,
    sameOutside_refl s⟩

theorem returned_writeRes (v : Dword) (s : State) : Returned v s (writeErr 0 (writeRes v s)) :=
  ⟨rfl, rfl, fun _ => rfl, rfl, sameOutside_refl s, rfl, rfl⟩

/-! ### CAPM before its reads (R227) -/

section
variable {sd : SlotNum} {len : Imm} {s : State}

theorem execCapm_of_invalid_length (h8 : len.toNat % 8 ≠ 0) :
    execCapm sd len s = .next (writeErr (errorCode .invalidLength) s) := by
  rcases execCapm_cases sd len s with ⟨-, e⟩ | ⟨h, -⟩ | ⟨h, -⟩ | ⟨h, -⟩
  · exact e
  all_goals exact absurd h h8

theorem execCapm_of_null (h8 : len.toNat % 8 = 0) (hptr : s.opa = 0) :
    execCapm sd len s = .next (writeErr 0 (writeSlot sd [] s)) := by
  rcases execCapm_cases sd len s with ⟨h, -⟩ | ⟨-, -, e⟩ | ⟨-, h, -⟩ | ⟨-, h, -⟩
  · exact absurd h8 h
  · exact e
  all_goals exact absurd hptr h

theorem execCapm_of_capacity_exceeded (h8 : len.toNat % 8 = 0) (hptr : s.opa ≠ 0) (hcap : s.cfg.maxb < len.toNat / 8) :
    execCapm sd len s = .next (writeErr (errorCode .capacityExceeded) s) := by
  rcases execCapm_cases sd len s with ⟨h, -⟩ | ⟨-, h, -⟩ | ⟨-, -, -, e⟩ | ⟨-, -, h, -⟩
  · exact absurd h8 h
  · exact absurd h hptr
  · exact e
  · exact absurd hcap h.not_gt

/-- A CAPM of length 0 makes no read, so it completes through any pointer (R112). -/
theorem execCapm_of_zero_length (s : State) :
    execCapm sd 0 s = .next (writeErr 0 (writeSlot sd [] s)) := by
  by_cases hptr : s.opa = 0
  · exact execCapm_of_null rfl hptr
  · exact execCapm_of_reads_next rfl hptr (Nat.zero_le _) rfl

/-- The one way CAPM gets to code 5 (R113). -/
theorem maxb_lt_of_execCapm_capacityExceeded {t : State} (h : execCapm sd len s = .next t)
    (herr : t.err = errorCode .capacityExceeded) : s.cfg.maxb < len.toNat / 8 := by
  rcases execCapm_cases sd len s with ⟨-, e⟩ | ⟨-, -, e⟩ | ⟨-, -, hcap, -⟩ |
    ⟨-, -, -, ⟨bs, u, -, e⟩ | ⟨r, -, e⟩ | ⟨r, -, e⟩⟩
  case inr.inr.inl => exact hcap
  all_goals rw [e] at h; cases h
  all_goals cases herr

end

/-- Settles O18, by the two ways CAPM captures nothing. -/
theorem capmNullIsEmpty : Obligations.CapmNullIsEmpty := by
  intro sd len s h8 hempty
  have hexec : exec (.capm sd len) s = .next (writeErr 0 (writeSlot sd [] s)) := by
    rcases hempty with hptr | rfl
    · exact execCapm_of_null h8 hptr
    · exact execCapm_of_zero_length s
  exact ⟨_, hexec, captured_writeSlot sd [] s, rfl, rfl⟩

/-- Settles O19: the length is checked first. -/
theorem capmInvalidLength : Obligations.CapmInvalidLength :=
  fun _ _ s h8 => ⟨_, execCapm_of_invalid_length h8, failedWith_writeErr .invalidLength s⟩

/-- Settles O20; a 16-bit length is of at most 8191 bytes. -/
theorem capmCapacityExceeded : Obligations.CapmCapacityExceeded := by
  refine ⟨fun sd len s h8 hptr hcap => ?_, fun sd len s t hmaxb hexec herr => ?_⟩
  · exact ⟨_, execCapm_of_capacity_exceeded h8 hptr hcap, failedWith_writeErr .capacityExceeded s⟩
  · have hcap : s.cfg.maxb < len.toNat / 8 := maxb_lt_of_execCapm_capacityExceeded hexec herr
    have hlen : len.toNat < 2 ^ 16 := len.isLt
    omega

/-! ### CAPV (R116) -/

theorem capvOf_captures (w : Width) (sd : SlotNum) (s : State) :
    ∃ t, exec (capvOf w sd) s = .next t ∧ NoReads s t ∧ Captured sd (valueBytes w s.opa) s t :=
  ⟨_, exec_capvOf w sd s, ⟨rfl, rfl⟩, captured_writeSlot sd _ s⟩

/-- Settles O24: the bytes of a value of each width, written out, are the slices the statement lists. -/
theorem capvCapturesLowByteFirst : Obligations.CapvCapturesLowByteFirst := by
  intro sd s
  simp only [ofWord_encode]
  exact ⟨rfl, rfl, rfl, rfl, capvOf_captures .w8 sd s, capvOf_captures .w16 sd s, capvOf_captures .w32 sd s,
    capvOf_captures .w64 sd s⟩

/-- Settles O25, by the length and the pattern of a value's bytes. -/
theorem capvPatternIsOperand : Obligations.CapvPatternIsOperand := by
  intro w sd s
  obtain ⟨t, hexec, -, hslot, -⟩ := capvOf_captures w sd s
  refine ⟨t, hexec, ?_, ?_⟩
  · rw [hslot, bitLength_valueBytes]
  · rw [hslot, pattern_valueBytes]

/-! ### COPY (R123 to R125) -/

/-- Settles O26; with `SD = SS` the slot that is written already holds the value. -/
theorem copyCopiesWholeSlot : Obligations.CopyCopiesWholeSlot := by
  intro sd ss s
  have hcopied : Captured sd (readSlot s ss) s (writeErr 0 (writeSlot sd (readSlot s ss) s)) := captured_writeSlot sd _ s
  refine ⟨encode_and_mask (r := ⟨"COPY", 0x00000003, 0xFFFFF0FF⟩) (by decide) rfl, _, rfl, hcopied, ⟨rfl, rfl⟩, ?_⟩
  rintro rfl k
  obtain ⟨hsame, -, hothers, -⟩ := hcopied
  by_cases hk : k = sd
  · rw [hk]; exact hsame
  · exact hothers k hk

/-- Settles O27: after the copy both slots hold the source's value, and the next command writes no slot but its
destination. -/
theorem copiesAreIndependent : Obligations.CopiesAreIndependent := by
  intro sd ss i s t u hne hcopy hnext
  have hsd : readSlot t sd = readSlot s ss := by
    obtain ⟨-, t', hexec, ⟨hslot, -⟩, -⟩ := copyCopiesWholeSlot sd ss s
    rw [hcopy] at hexec
    cases hexec
    exact hslot
  have hss : readSlot t ss = readSlot s ss :=
    onlyCapturesWriteSlots _ s t hcopy ss fun h => hne (Option.some.inj h)
  exact ⟨fun hd => (onlyCapturesWriteSlots i t u hnext sd hd).trans hsd,
    fun hd => (onlyCapturesWriteSlots i t u hnext ss hd).trans hss⟩

/-! ### BITLEN (R127, R128) -/

/-- Settles O28; the bit length of 8191 bytes fits `RES`. -/
theorem bitlenReturnsBitLength : Obligations.BitlenReturnsBitLength := by
  intro ss s
  refine ⟨encode_and_mask (r := ⟨"BITLEN", 0x00000004, 0xFFFFF3FF⟩) (by decide) rfl, _, rfl, returned_writeRes _ s,
    fun hlen => ?_⟩
  have hres : (BitVec.ofNat 64 ((readSlot s ss).length * 8)).toNat = (readSlot s ss).length * 8 := by
    rw [BitVec.toNat_ofNat, Nat.mod_eq_of_lt (by omega)]
  exact ⟨hres, hres ▸ Nat.mul_mod_left _ 8⟩

/-! ### GETBIT (R130, R131) -/

theorem execGetbit_of_lt {ss : SlotNum} {pos : Imm} {s : State} (h : pos.toNat < bitLength (readSlot s ss)) :
    execGetbit ss pos s = .next (writeErr 0 (writeRes ((getBit (readSlot s ss) pos.toNat).setWidth 64) s)) :=
  if_neg h.not_ge

theorem execGetbit_of_ge {ss : SlotNum} {pos : Imm} {s : State} (h : bitLength (readSlot s ss) ≤ pos.toNat) :
    execGetbit ss pos s = .next (writeErr (errorCode .outOfRange) s) :=
  if_pos h

/-- The bit at a position whose byte the sequence has (R13, R20). -/
theorem getBit_of_getElem? {q : BitSeq} {pos : Nat} {b : Byte} (h : q[pos / 8]? = some b) :
    getBit q pos = (b >>> (pos % 8)) &&& 1#8 := by
  simp [getBit, List.getD_eq_getElem?_getD, h]

/-- A position is below the bit length when the sequence has its byte (R19). -/
theorem lt_bitLength_of_getElem? {q : BitSeq} {pos : Nat} {b : Byte} (h : q[pos / 8]? = some b) : pos < bitLength q := by
  obtain ⟨hbyte, -⟩ := List.getElem?_eq_some_iff.mp h
  unfold bitLength
  omega

theorem setWidth_getBit_eq_zero_or_one (q : BitSeq) (pos : Nat) :
    (getBit q pos).setWidth 64 = 0 ∨ (getBit q pos).setWidth 64 = 1 := by
  have hbit := getBit_toNat q pos
  rcases Nat.mod_two_eq_zero_or_one (pattern q / 2 ^ pos) with h | h <;> rw [h] at hbit
  · exact .inl (BitVec.eq_of_toNat_eq (by simp [hbit]))
  · exact .inr (BitVec.eq_of_toNat_eq (by simp [hbit]))

/-- Settles O29, at a position whose byte the slot has and at one past the bit length. -/
theorem getbitReturnsBit : Obligations.GetbitReturnsBit := by
  intro ss pos s
  refine ⟨encode_and_mask (r := ⟨"GETBIT", 0x00000005, 0x0000F3FF⟩) (by decide) rfl, fun b hb => ?_, fun hpast => ?_⟩
  · rw [← getBit_of_getElem? hb]
    exact ⟨_, execGetbit_of_lt (lt_bitLength_of_getElem? hb), returned_writeRes _ s, setWidth_getBit_eq_zero_or_one _ _⟩
  · exact ⟨_, execGetbit_of_ge hpast, failedWith_writeErr .outOfRange s⟩

/-! ### RDBYTE (R135, R136) -/

theorem execRdbyte_of_some {ss : SlotNum} {index : Imm} {s : State} {b : Byte}
    (h : (readSlot s ss)[index.toNat]? = some b) :
    execRdbyte ss index s = .next (writeErr 0 (writeRes (b.setWidth 64) s)) := by
  unfold execRdbyte
  rw [h]
  rfl

theorem execRdbyte_of_none {ss : SlotNum} {index : Imm} {s : State} (h : (readSlot s ss)[index.toNat]? = none) :
    execRdbyte ss index s = .next (writeErr (errorCode .outOfRange) s) := by
  unfold execRdbyte
  rw [h]
  rfl

/-- Settles O30, at an index the slot has and at one past its bytes. -/
theorem rdbyteReturnsByte : Obligations.RdbyteReturnsByte := by
  intro ss index s
  refine ⟨encode_and_mask (r := ⟨"RDBYTE", 0x00000006, 0x0000F3FF⟩) (by decide) rfl, fun b hb => ?_, fun hpast => ?_⟩
  · exact ⟨_, execRdbyte_of_some hb, returned_writeRes _ s⟩
  · exact ⟨_, execRdbyte_of_none (List.getElem?_eq_none hpast), failedWith_writeErr .outOfRange s⟩

end Sys2Proof.Machine
end

section
/-! PROOF. The integer decodes (O31 to O36), the round trip of an integer through a slot (O37), and that every decode reads
its source slot and the build parameters alone (O56). -/

namespace Sys2Proof.Machine

/-! ### The widths (R84) -/

theorem widthBits_le (w : Width) : widthBits w ≤ 64 := by cases w <;> decide

theorem widthBits_pos (w : Width) : 0 < widthBits w := by cases w <;> decide

theorem widthBits_eq_iff (w : Width) : widthBits w = 64 ↔ w = .w64 := by cases w <;> simp [widthBits]

/-! ### The decodes by width and format (R84, R163 to R170, R190, R200) -/

theorem exec_decuOf (w : Width) (ss : SlotNum) (s : State) : exec (decuOf w ss) s = decodeInt w false ss s := by
  cases w <;> rfl

theorem exec_decsOf (w : Width) (ss : SlotNum) (s : State) : exec (decsOf w ss) s = decodeInt w true ss s := by
  cases w <;> rfl

theorem exec_decfOf (F : FloatFormat) (ss : SlotNum) (s : State) : exec (decfOf F ss) s = decodeFloat F ss s := by
  cases F <;> rfl

section
variable {w : Width} {ss : SlotNum} {s : State}

theorem decodeInt_of_le (h : bitLength (readSlot s ss) ≤ widthBits w) (signed : Bool) :
    decodeInt w signed ss s =
      .next (writeErr 0 (writeRes (extendResult signed (accumulate (widthBits w) (readSlot s ss))) s)) :=
  if_neg h.not_gt

theorem decodeInt_of_gt (h : widthBits w < bitLength (readSlot s ss)) (signed : Bool) :
    decodeInt w signed ss s = .next (writeErr (errorCode .widthOverflow) s) :=
  if_pos h

theorem exec_decuOf_of_le (h : bitLength (readSlot s ss) ≤ widthBits w) :
    exec (decuOf w ss) s =
      .next (writeErr 0 (writeRes ((accumulate (widthBits w) (readSlot s ss)).setWidth 64) s)) :=
  (exec_decuOf w ss s).trans (decodeInt_of_le h false)

theorem exec_decsOf_of_le (h : bitLength (readSlot s ss) ≤ widthBits w) :
    exec (decsOf w ss) s =
      .next (writeErr 0 (writeRes ((accumulate (widthBits w) (readSlot s ss)).signExtend 64) s)) :=
  (exec_decsOf w ss s).trans (decodeInt_of_le h true)

end

section
variable {F : FloatFormat} {ss : SlotNum} {s : State}

theorem decodeFloat_of_eq (h : bitLength (readSlot s ss) = formatWidth F) :
    decodeFloat F ss s = .next (writeErr 0
      (writeCls (classify F (floatFields F (readSlot s ss)).E (floatFields F (readSlot s ss)).M)
        (writeRes (BitVec.ofNat 64 (outPattern s.cfg F (floatFields F (readSlot s ss)))) s))) :=
  if_neg (not_not_intro h)

theorem decodeFloat_of_ne (h : bitLength (readSlot s ss) ≠ formatWidth F) :
    decodeFloat F ss s = .next (writeErr (errorCode .wrongWidth) s) :=
  if_pos h

end

/-! ### The W-bit pattern of a slot, and its extension to 64 bits (R152, R155, R157) -/

theorem accumulate_eq_ofNat (W : Nat) (q : BitSeq) : accumulate W q = BitVec.ofNat W (pattern q) :=
  BitVec.eq_of_toNat_eq (by rw [accumulate_toNat, BitVec.toNat_ofNat])

theorem getLsbD_accumulate {W p : Nat} (hp : p < W) (q : BitSeq) : (accumulate W q).getLsbD p = (pattern q).testBit p := by
  rw [accumulate_eq_ofNat, BitVec.getLsbD_ofNat, decide_eq_true hp, Bool.true_and]

theorem msb_accumulate {W : Nat} (hW : 0 < W) (q : BitSeq) : (accumulate W q).msb = (pattern q).testBit (W - 1) := by
  rw [BitVec.msb_eq_getLsbD_last, getLsbD_accumulate (Nat.sub_one_lt_of_lt hW)]

/-- A slot that fits `W` bits, extended by zeros, is its pattern (R155). -/
theorem setWidth_accumulate {W : Nat} {q : BitSeq} (h : bitLength q ≤ W) :
    (accumulate W q).setWidth 64 = BitVec.ofNat 64 (pattern q) := by
  rw [← BitVec.ofNat_toNat, accumulate_toNat_of_le h]

theorem toNat_setWidth_accumulate {W : Nat} {q : BitSeq} (h : bitLength q ≤ W) (hW : W ≤ 64) :
    ((accumulate W q).setWidth 64).toNat = pattern q := by
  rw [BitVec.toNat_setWidth_of_le hW, accumulate_toNat_of_le h]

/-- The two's-complement reading at width `W` (R153). -/
theorem toInt_accumulate {W : Nat} {q : BitSeq} (hpos : 0 < W) (h : bitLength q ≤ W) :
    (accumulate W q).toInt = if pattern q < 2 ^ (W - 1) then (pattern q : Int) else (pattern q : Int) - 2 ^ W := by
  have hpow : 2 ^ W = 2 * 2 ^ (W - 1) := by rw [← Nat.pow_succ', Nat.succ_eq_add_one, Nat.sub_add_cancel hpos]
  have hhalf : 2 * pattern q < 2 ^ W ↔ pattern q < 2 ^ (W - 1) := by omega
  rw [BitVec.toInt_eq_toNat_cond, accumulate_toNat_of_le h]
  simp only [hhalf, Nat.cast_pow, Nat.cast_ofNat]

theorem pattern_lt_of_bitLength_le {q : BitSeq} {n : Nat} (h : bitLength q ≤ n) : pattern q < 2 ^ n :=
  (pattern_lt q).trans_le (Nat.pow_le_pow_right Nat.two_pos h)

/-- Bit `p` of the pattern is bit `p` of the slot (R20, R22). -/
theorem testBit_pattern (q : BitSeq) (p : Nat) : (pattern q).testBit p = (getBit q p == 1#8) := by
  rw [Nat.testBit_eq_decide_div_mod_eq, ← getBit_toNat, beq_eq_decide]
  exact decide_eq_decide.mpr (BitVec.toNat_inj (y := 1#8))

theorem testBit_pattern_of_le {q : BitSeq} {p : Nat} (h : bitLength q ≤ p) : (pattern q).testBit p = false :=
  Nat.testBit_lt_two_pow (pattern_lt_of_bitLength_le h)

/-- A slot shorter than `W` has bit `W-1` of its W-bit pattern 0, whatever its own top bit is, so the extension by sign fills
with zeros (R154). -/
theorem signExtend_accumulate_of_lt {W : Nat} {q : BitSeq} (h : bitLength q < W) :
    (accumulate W q).signExtend 64 = BitVec.ofNat 64 (pattern q) := by
  have hmsb : (accumulate W q).msb = false := by
    rw [msb_accumulate (Nat.zero_lt_of_lt h), testBit_pattern_of_le (Nat.le_sub_one_of_lt h)]
  rw [BitVec.signExtend_eq_setWidth_of_msb_false hmsb, setWidth_accumulate h.le]

section
variable {W p : Nat}

theorem getLsbD_signExtend_of_lt (r : BitVec W) (hW : W ≤ 64) (hp : p < W) :
    (r.signExtend 64).getLsbD p = r.getLsbD p := by
  rw [BitVec.getLsbD_signExtend, decide_eq_true (hp.trans_le hW), if_pos hp, Bool.true_and]

theorem getLsbD_signExtend_of_ge (r : BitVec W) (hWp : W ≤ p) (hp : p < 64) : (r.signExtend 64).getLsbD p = r.msb := by
  rw [BitVec.getLsbD_signExtend, decide_eq_true hp, if_neg hWp.not_gt, Bool.true_and]

theorem getLsbD_setWidth_of_lt (r : BitVec W) (hW : W ≤ 64) (hp : p < W) :
    (r.setWidth 64).getLsbD p = r.getLsbD p := by
  rw [BitVec.getLsbD_setWidth, decide_eq_true (hp.trans_le hW), Bool.true_and]

/-- The two extensions of a W-bit pattern agree when there is nothing to fill or the fill is zeros (R157). -/
theorem setWidth_eq_signExtend_iff (r : BitVec W) (hW : W ≤ 64) :
    r.setWidth 64 = r.signExtend 64 ↔ W = 64 ∨ r.msb = false := by
  constructor
  · intro heq
    refine hW.eq_or_lt.imp_right fun hlt => ?_
    calc r.msb = (r.signExtend 64).getLsbD W := (getLsbD_signExtend_of_ge r le_rfl hlt).symm
      _ = (r.setWidth 64).getLsbD W := by rw [heq]
      _ = false := by simp
  · rintro (rfl | hmsb)
    · rw [BitVec.setWidth_eq, BitVec.signExtend_eq]
    · exact (BitVec.signExtend_eq_setWidth_of_msb_false hmsb).symm

end

/-! ### DECU and DECS (R150 to R157, R163 to R170) -/

/-- Settles O31: the four rows are DECU at the four widths, and a slot that fits `W` bits is its own W-bit pattern. -/
theorem decuReturnsPattern : Obligations.DecuReturnsPattern := by
  intro ss s i n fn hrow
  obtain ⟨w, rfl, hn, hfn⟩ : ∃ w, i = decuOf w ss ∧ widthBits w = 8 * n ∧ (encodeFields i).fn = fn := by
    fin_cases hrow
    exacts [⟨.w8, rfl, rfl, rfl⟩, ⟨.w16, rfl, rfl, rfl⟩, ⟨.w32, rfl, rfl, rfl⟩, ⟨.w64, rfl, rfl, rfl⟩]
  refine ⟨ofWord_encode _ ▸ hfn, fun hlen => ?_, fun hlen => ?_⟩
  · have hfits : bitLength (readSlot s ss) ≤ widthBits w := by unfold bitLength; omega
    exact ⟨_, exec_decuOf_of_le hfits, setWidth_accumulate hfits ▸ returned_writeRes _ s,
      toNat_setWidth_accumulate hfits (widthBits_le w)⟩
  · have hover : widthBits w < bitLength (readSlot s ss) := by unfold bitLength; omega
    exact ⟨_, (exec_decuOf w ss s).trans (decodeInt_of_gt hover false), failedWith_writeErr .widthOverflow s⟩

/-- Settles O32, as O31, with the extension by sign. -/
theorem decsReturnsSignExtended : Obligations.DecsReturnsSignExtended := by
  intro ss s i n fn hrow
  obtain ⟨w, rfl, hn, hfn⟩ : ∃ w, i = decsOf w ss ∧ widthBits w = 8 * n ∧ (encodeFields i).fn = fn := by
    fin_cases hrow
    exacts [⟨.w8, rfl, rfl, rfl⟩, ⟨.w16, rfl, rfl, rfl⟩, ⟨.w32, rfl, rfl, rfl⟩, ⟨.w64, rfl, rfl, rfl⟩]
  refine ⟨ofWord_encode _ ▸ hfn, fun hlen => ?_, fun hlen => ?_⟩
  · have hfits : bitLength (readSlot s ss) ≤ widthBits w := by unfold bitLength; omega
    refine ⟨_, exec_decsOf_of_le hfits, ?_⟩
    rw [← hn, accumulate_eq_ofNat]
    exact returned_writeRes _ s
  · have hover : widthBits w < bitLength (readSlot s ss) := by unfold bitLength; omega
    exact ⟨_, (exec_decsOf w ss s).trans (decodeInt_of_gt hover true), failedWith_writeErr .widthOverflow s⟩

/-- Settles O33: neither extension touches a bit below `W`, and there the pattern has the slot's bits. -/
theorem integerResultBits : Obligations.IntegerResultBits := by
  intro w ss s hfits
  refine ⟨_, _, exec_decuOf_of_le hfits, exec_decsOf_of_le hfits, fun p hp => ?_⟩
  have hu := getLsbD_setWidth_of_lt (accumulate (widthBits w) (readSlot s ss)) (widthBits_le w) hp
  have hs := getLsbD_signExtend_of_lt (accumulate (widthBits w) (readSlot s ss)) (widthBits_le w) hp
  have hbit := hu.trans (getLsbD_accumulate hp _)
  exact ⟨hu.trans hs.symm, fun _ => hbit.trans (testBit_pattern _ p),
    fun hpast => hbit.trans (testBit_pattern_of_le hpast)⟩

/-- Settles O34: extending by sign keeps the two's-complement value. -/
theorem integerResultValue : Obligations.IntegerResultValue := by
  intro w ss s hfits
  refine ⟨_, _, exec_decuOf_of_le hfits, exec_decsOf_of_le hfits, toNat_setWidth_accumulate hfits (widthBits_le w), ?_⟩
  exact (BitVec.toInt_signExtend_of_le (widthBits_le w)).trans (toInt_accumulate (widthBits_pos w) hfits)

/-- Settles O35: both extensions of a short slot are its pattern, which is below `2^(W-1)`. -/
theorem shortSlotIsNotSignExtended : Obligations.ShortSlotIsNotSignExtended := by
  intro w ss s hshort
  have hdecs := exec_decsOf_of_le hshort.le
  have hdecu := exec_decuOf_of_le hshort.le
  have hsext := signExtend_accumulate_of_lt hshort
  rw [hsext] at hdecs
  rw [setWidth_accumulate hshort.le] at hdecu
  refine ⟨_, hdecs, returned_writeRes _ s, ?_, hdecu⟩
  have hhalf := pattern_lt_of_bitLength_le (Nat.le_sub_one_of_lt hshort)
  calc (BitVec.ofNat 64 (pattern (readSlot s ss))).toInt
      = (accumulate (widthBits w) (readSlot s ss)).toInt := by rw [← hsext, BitVec.toInt_signExtend_of_le (widthBits_le w)]
    _ = pattern (readSlot s ss) := by rw [toInt_accumulate (widthBits_pos w) hshort.le, if_pos hhalf]

/-- Settles O36: DECS fills `RES[63:W]` with bit `W-1` of the pattern, DECU with zeros. -/
theorem decuAndDecsAgree : Obligations.DecuAndDecsAgree := by
  intro w ss s t u hfits ht hu
  rw [exec_decuOf_of_le hfits] at ht
  rw [exec_decsOf_of_le hfits] at hu
  cases ht
  cases hu
  have hiff := setWidth_eq_signExtend_iff (accumulate (widthBits w) (readSlot s ss)) (widthBits_le w)
  refine ⟨?_, fun hne p hWp hp => ?_⟩
  · rwa [widthBits_eq_iff, msb_accumulate (widthBits_pos w)] at hiff
  · obtain ⟨-, hmsb⟩ := not_or.mp (mt hiff.mpr hne)
    exact (getLsbD_signExtend_of_ge _ hWp hp).trans (Bool.eq_true_of_not_eq_false hmsb)

/-! ### The round trip (R160) -/

theorem wf_capvOf (c : Config) (w : Width) (k : SlotNum) : (capvOf w k).wf c = decide (k.toNat < c.nseq) := by
  cases w <;> simp [capvOf, Instr.wf, Instr.dest?, Instr.source?, slotExists]

/-- The integer decode of a width and a signedness exists when its slot does (R82). -/
theorem wf_decint (c : Config) (w : Width) (signed : Bool) (k : SlotNum) :
    (if signed then decsOf w k else decuOf w k).wf c = decide (k.toNat < c.nseq) := by
  cases signed <;> cases w <;> rfl

theorem exec_decint (w : Width) (signed : Bool) (k : SlotNum) (s : State) :
    exec (if signed then decsOf w k else decuOf w k) s = decodeInt w signed k s := by
  cases signed
  · exact exec_decuOf w k s
  · exact exec_decsOf w k s

/-- The step that takes the word of a command the block has, when the command completes (R88, R256). -/
theorem step_of_encode {s t : State} {i : Instr} {opa : Dword} {during : List Host.Cell} {rest : List HostEvent}
    (hrst : s.rst = false) (hh : s.host = .command (encode i) opa during :: rest) (hwf : i.wf s.cfg = true)
    (hexec : exec i (acceptCommand (encode i) opa during rest s) = .next t) : step s = .next (finishCommand t) := by
  rw [step_of_command hrst hh (decode_eq_instr_iff_encode.mpr ⟨rfl, hwf⟩), hexec, settle_next]

/-- The step of a CAPV leaves the value's bytes in the slot and the block ready for the host's next action (R116). -/
theorem step_capvOf {s : State} {k : SlotNum} {w : Width} {v : Dword} {during : List Host.Cell} {rest : List HostEvent}
    (hrst : s.rst = false) (hk : k.toNat < s.cfg.nseq) (hh : s.host = .command (encode (capvOf w k)) v during :: rest) :
    ∃ t, step s = .next t ∧ t.err = 0 ∧ readSlot t k = valueBytes w v ∧ t.rst = false ∧ t.cfg = s.cfg ∧
      t.host = rest :=
  ⟨_, step_of_encode hrst hh (by rw [wf_capvOf, decide_eq_true hk]) (exec_capvOf w k _), rfl,
    readSlot_writeSlot_same k _ _, hrst, rfl, rfl⟩

/-- What CAPV of width `W` captures has the low `W` bits of the value as its W-bit pattern (R117). -/
theorem accumulate_valueBytes (w : Width) (v : Dword) :
    accumulate (widthBits w) (valueBytes w v) = v.setWidth (widthBits w) :=
  BitVec.eq_of_toNat_eq (by rw [accumulate_toNat, pattern_valueBytes, Nat.mod_mod, BitVec.toNat_setWidth])

/-- An integer decode of what CAPV captured extends the value itself (R160). -/
theorem decodeInt_of_valueBytes {s : State} {k : SlotNum} {w : Width} {v : Dword} (h : readSlot s k = valueBytes w v)
    (signed : Bool) :
    decodeInt w signed k s = .next (writeErr 0 (writeRes (extendResult signed (v.setWidth (widthBits w))) s)) := by
  have hfits : bitLength (readSlot s k) ≤ widthBits w := by rw [h, bitLength_valueBytes]
  rw [decodeInt_of_le hfits, h, accumulate_valueBytes]

/-- The step of an integer decode, of a slot that holds what CAPV captured (R160). -/
theorem step_decint_of_valueBytes {s : State} {k : SlotNum} {w : Width} {v opa : Dword} {signed : Bool}
    {during : List Host.Cell} {rest : List HostEvent} (hrst : s.rst = false) (hk : k.toNat < s.cfg.nseq)
    (hh : s.host = .command (encode (if signed then decsOf w k else decuOf w k)) opa during :: rest)
    (hslot : readSlot s k = valueBytes w v) :
    ∃ u, step s = .next u ∧ u.err = 0 ∧ u.host = rest ∧ u.res = extendResult signed (v.setWidth (widthBits w)) := by
  have hwf : (if signed then decsOf w k else decuOf w k).wf s.cfg = true := by rw [wf_decint, decide_eq_true hk]
  have hexec := (exec_decint w signed k _).trans
    (decodeInt_of_valueBytes (s := acceptCommand (encode (if signed then decsOf w k else decuOf w k)) opa during rest s)
      hslot signed)
  exact ⟨_, step_of_encode hrst hh hwf hexec, rfl, rfl, rfl⟩

/-- Settles O37: the slot that the first step leaves is the operand's bytes, and the second step decodes them. -/
theorem integerRoundTrip : Obligations.IntegerRoundTrip := by
  intro s k w v x d d' signed rest hrst hk hh
  obtain ⟨t, hcapv, herr, hslot, htrst, hcfg, hhost⟩ := step_capvOf hrst hk hh
  obtain ⟨u, hdec, herr', hrest, hres⟩ := step_decint_of_valueBytes htrst (hcfg ▸ hk) hhost hslot
  exact ⟨t, u, hcapv, herr, hdec, herr', hrest, hres⟩

/-! ### What a decode reads (R159, R205, R223) -/

theorem decuOf_ne_decfOf (w : Width) (F : FloatFormat) (ss : SlotNum) : decuOf w ss ≠ decfOf F ss := by
  cases w <;> cases F <;> nofun

theorem decsOf_ne_decfOf (w : Width) (F : FloatFormat) (ss : SlotNum) : decsOf w ss ≠ decfOf F ss := by
  cases w <;> cases F <;> nofun

theorem errorCode_ne_zero (e : ErrorKind) : errorCode e ≠ 0 := by cases e <;> decide

section
variable {ss : SlotNum} {s s' t t' : State}

/-- Integer decodes of equal slots answer alike (R159). -/
theorem decodeInt_congr {w : Width} {signed : Bool} (hslot : readSlot s ss = readSlot s' ss)
    (h : decodeInt w signed ss s = .next t) (h' : decodeInt w signed ss s' = .next t') :
    t.err = t'.err ∧ (t.err = 0 → t.res = t'.res) := by
  by_cases hfits : bitLength (readSlot s ss) ≤ widthBits w
  · rw [decodeInt_of_le hfits] at h
    rw [decodeInt_of_le (hslot ▸ hfits), ← hslot] at h'
    cases h
    cases h'
    exact ⟨rfl, fun _ => rfl⟩
  · rw [decodeInt_of_gt (not_le.mp hfits)] at h
    rw [decodeInt_of_gt (hslot ▸ not_le.mp hfits)] at h'
    cases h
    cases h'
    exact ⟨rfl, fun h0 => (errorCode_ne_zero .widthOverflow h0).elim⟩

/-- Float decodes of equal slots on blocks with equal parameters answer alike (R205). -/
theorem decodeFloat_congr {F : FloatFormat} (hslot : readSlot s ss = readSlot s' ss) (hcfg : s.cfg = s'.cfg)
    (h : decodeFloat F ss s = .next t) (h' : decodeFloat F ss s' = .next t') :
    t.err = t'.err ∧ (t.err = 0 → t.res = t'.res ∧ t.cls = t'.cls) := by
  by_cases hwidth : bitLength (readSlot s ss) = formatWidth F
  · rw [decodeFloat_of_eq hwidth] at h
    rw [decodeFloat_of_eq (hslot ▸ hwidth), ← hslot, ← hcfg] at h'
    cases h
    cases h'
    exact ⟨rfl, fun _ => ⟨rfl, rfl⟩⟩
  · rw [decodeFloat_of_ne hwidth] at h
    rw [decodeFloat_of_ne (hslot ▸ hwidth)] at h'
    cases h
    cases h'
    exact ⟨rfl, fun h0 => (errorCode_ne_zero .wrongWidth h0).elim⟩

end

/-- Settles O56, by the two decoders that the three commands run. -/
theorem decodesDependOnSourceAlone : Obligations.DecodesDependOnSourceAlone := by
  intro w F ss i s s' t t' hi hslot hcfg h h'
  simp only [List.mem_cons, List.not_mem_nil, or_false] at hi
  rcases hi with rfl | rfl | rfl
  · rw [exec_decuOf] at h h'
    obtain ⟨herr, hres⟩ := decodeInt_congr hslot h h'
    exact ⟨herr, fun h0 => ⟨hres h0, fun hf => absurd hf (decuOf_ne_decfOf w F ss)⟩⟩
  · rw [exec_decsOf] at h h'
    obtain ⟨herr, hres⟩ := decodeInt_congr hslot h h'
    exact ⟨herr, fun h0 => ⟨hres h0, fun hf => absurd hf (decsOf_ne_decfOf w F ss)⟩⟩
  · rw [exec_decfOf] at h h'
    obtain ⟨herr, hout⟩ := decodeFloat_congr hslot hcfg h h'
    exact ⟨herr, fun h0 => (hout h0).imp_right fun hcls _ => hcls⟩

end Sys2Proof.Machine
end

section
/-! PROOF. The float decodes: the classification of a pattern (O38), its fields (O39), what the decoders return (O40 to O43,
O46) and the round trip of a pattern through a slot (O47, O48). -/

namespace Sys2Proof.Machine

/-! ### The classification (R182) -/

theorem exponentMax_pos (F : FloatFormat) : 0 < exponentMax F := by cases F <;> decide

section
variable {F : FloatFormat} {E M : Nat}

theorem classify_eq_zero_iff : classify F E M = .zero ↔ E = 0 ∧ M = 0 := by
  unfold classify
  split_ifs <;> simp [*]

theorem classify_eq_subnormal_iff : classify F E M = .subnormal ↔ E = 0 ∧ M ≠ 0 := by
  unfold classify
  split_ifs <;> simp [*]

theorem classify_eq_normal_iff : classify F E M = .normal ↔ 0 < E ∧ E < exponentMax F := by
  unfold classify
  split_ifs <;> simp [*, Nat.pos_iff_ne_zero]

theorem classify_eq_infinity_iff (hE : E ≤ exponentMax F) : classify F E M = .infinity ↔ E = exponentMax F ∧ M = 0 := by
  have hpos := exponentMax_pos F
  unfold classify
  split_ifs <;> simp [*] <;> omega

theorem classify_eq_nan_iff (hE : E ≤ exponentMax F) : classify F E M = .nan ↔ E = exponentMax F ∧ M ≠ 0 := by
  have hpos := exponentMax_pos F
  unfold classify
  split_ifs <;> simp [*] <;> omega

end

/-- Settles O38, row by row of the table. -/
theorem classificationTable : Obligations.ClassificationTable := fun _ _ _ hE =>
  ⟨classify_eq_zero_iff, classify_eq_subnormal_iff, classify_eq_normal_iff, classify_eq_infinity_iff hE,
    classify_eq_nan_iff hE, rfl⟩

/-! ### The fields of a pattern (R180, R181, R186) -/

/-- The slices of R181 of a pattern as a number: sign, exponent and mantissa. -/
def patternFields (F : FloatFormat) (P : Nat) : FloatFields :=
  ⟨P / 2 ^ (formatWidth F - 1), P / 2 ^ mantissaWidth F % (exponentMax F + 1), P % 2 ^ mantissaWidth F⟩

/-- Fields of the widths that the format gives them (R180). -/
structure FloatFields.Fits (F : FloatFormat) (f : FloatFields) : Prop where
  sign_lt : f.sign < 2
  E_le : f.E ≤ exponentMax F
  M_lt : f.M < 2 ^ mantissaWidth F

theorem floatFields_eq_patternFields {F : FloatFormat} {q : BitSeq} (h : bitLength q = formatWidth F) :
    floatFields F q = patternFields F (pattern q) := by
  have hsign : pattern q / 2 ^ (formatWidth F - 1) < 2 := by
    have hlt : pattern q < 2 ^ formatWidth F := h ▸ pattern_lt q
    cases F <;> simp only [formatWidth] at hlt ⊢ <;> omega
  have hwidths : formatWidth F - 2 + 1 - mantissaWidth F = formatWidth F - 1 - mantissaWidth F ∧
      2 ^ (formatWidth F - 1 - mantissaWidth F) = exponentMax F + 1 ∧ 0 < mantissaWidth F := by cases F <;> decide
  obtain ⟨hexp, hmax, hpos⟩ := hwidths
  simp only [floatFields, patternFields, readUnsignedRange_eq, FloatFields.mk.injEq]
  refine ⟨?_, ?_, ?_⟩
  · rw [Nat.add_sub_cancel_left, pow_one, Nat.mod_eq_of_lt hsign]
  · rw [hexp, hmax]
  · rw [pow_zero, Nat.div_one, Nat.sub_zero, Nat.sub_add_cancel hpos]

/-- Joining the slices of a pattern gives the pattern back (R186). -/
theorem joinFields_patternFields (F : FloatFormat) (P : Nat) :
    joinFields F (patternFields F P).sign (patternFields F P).E (patternFields F P).M = P := by
  cases F <;> simp only [joinFields, patternFields, formatWidth, mantissaWidth, exponentMax] <;> omega

theorem patternFields_joinFields {F : FloatFormat} {f : FloatFields} (hf : f.Fits F) :
    patternFields F (joinFields F f.sign f.E f.M) = f := by
  obtain ⟨hs, hE, hM⟩ := hf
  cases f
  cases F <;> simp only [joinFields, patternFields, formatWidth, mantissaWidth, exponentMax, FloatFields.mk.injEq] at * <;>
    omega

theorem joinFields_lt {F : FloatFormat} {f : FloatFields} (hf : f.Fits F) :
    joinFields F f.sign f.E f.M < 2 ^ formatWidth F := by
  obtain ⟨hs, hE, hM⟩ := hf
  cases F <;> simp only [joinFields, formatWidth, mantissaWidth, exponentMax] at * <;> omega

theorem patternFields_fits {F : FloatFormat} {P : Nat} (h : P < 2 ^ formatWidth F) : (patternFields F P).Fits F := by
  refine ⟨?_, Nat.le_of_lt_succ (Nat.mod_lt _ (Nat.succ_pos _)), Nat.mod_lt _ (Nat.two_pow_pos _)⟩
  cases F <;> simp only [patternFields, formatWidth] at h ⊢ <;> omega

section
variable {F : FloatFormat} {q : BitSeq}

theorem floatFields_fits (h : bitLength q = formatWidth F) : (floatFields F q).Fits F :=
  floatFields_eq_patternFields h ▸ patternFields_fits (h ▸ pattern_lt q)

/-- A slot of the format's width is the join of its fields (R181, R186). -/
theorem joinFields_floatFields (h : bitLength q = formatWidth F) :
    joinFields F (floatFields F q).sign (floatFields F q).E (floatFields F q).M = pattern q := by
  rw [floatFields_eq_patternFields h, joinFields_patternFields]

end

/-- Settles O39, at the two formats. -/
theorem fieldsArePatternSlices : Obligations.FieldsArePatternSlices := fun _ =>
  ⟨floatFields_eq_patternFields (F := .binary32), floatFields_eq_patternFields (F := .binary64)⟩

/-! ### The pattern a decoder returns (R186, R188) -/

/-- The fields of the canonical NaN for an input of the given sign (R188). -/
def nanFields (c : Config) (F : FloatFormat) (sign : Nat) : FloatFields :=
  ⟨nanSignBit c sign, exponentMax F, nanFraction c F⟩

/-- The canonical NaN for an input of the given sign, as a pattern (R188). -/
def canonicalNan (c : Config) (F : FloatFormat) (sign : Nat) : Nat :=
  joinFields F (nanSignBit c sign) (exponentMax F) (nanFraction c F)

theorem nanSignBit_lt (c : Config) {sign : Nat} (hs : sign < 2) : nanSignBit c sign < 2 := by
  unfold nanSignBit
  split <;> omega

theorem nanFraction_lt (c : Config) (F : FloatFormat) : nanFraction c F < 2 ^ mantissaWidth F := by
  cases F
  · exact c.nan32Frac.isLt
  · exact c.nan64Frac.isLt

theorem nanFields_fits (c : Config) (F : FloatFormat) {sign : Nat} (hs : sign < 2) : (nanFields c F sign).Fits F :=
  ⟨nanSignBit_lt c hs, le_rfl, nanFraction_lt c F⟩

theorem nanFraction_ne_zero {c : Config} (hc : c.Legal) (F : FloatFormat) : nanFraction c F ≠ 0 := by
  obtain ⟨-, -, -, -, -, -, h32, h64⟩ := hc
  cases F
  · exact fun h0 => h32 (BitVec.eq_of_toNat_eq h0)
  · exact fun h0 => h64 (BitVec.eq_of_toNat_eq h0)

section
variable {c : Config} {F : FloatFormat} {f : FloatFields}

/-- Every class but NaN gives the input's own fields back (R186). -/
theorem outPattern_of_ne_nan (hE : f.E ≤ exponentMax F) (hn : classify F f.E f.M ≠ .nan) :
    outPattern c F f = joinFields F f.sign f.E f.M := by
  cases hc : classify F f.E f.M with
  | zero =>
    obtain ⟨hE0, hM0⟩ := classify_eq_zero_iff.mp hc
    simp only [outPattern, hc]
    rw [hE0, hM0]
  | subnormal =>
    obtain ⟨hE0, -⟩ := classify_eq_subnormal_iff.mp hc
    simp only [outPattern, hc]
    rw [hE0]
  | normal => simp only [outPattern, hc]
  | infinity =>
    obtain ⟨hEmax, hM0⟩ := (classify_eq_infinity_iff hE).mp hc
    simp only [outPattern, hc]
    rw [hEmax, hM0]
  | nan => exact absurd hc hn

theorem outPattern_of_nan (hn : classify F f.E f.M = .nan) : outPattern c F f = canonicalNan c F f.sign := by
  simp only [outPattern, hn, canonicalNan]

end

theorem toNat_ofNat_of_lt_format {F : FloatFormat} {n : Nat} (h : n < 2 ^ formatWidth F) :
    (BitVec.ofNat 64 n).toNat = n := by
  have hle : formatWidth F ≤ 64 := by cases F <;> decide
  rw [BitVec.toNat_ofNat, Nat.mod_eq_of_lt (h.trans_le (Nat.pow_le_pow_right Nat.two_pos hle))]

/-- The canonical NaN of legal parameters is a NaN of the format (R188). -/
theorem isNanPattern_canonicalNan {c : Config} (hc : c.Legal) (F : FloatFormat) {sign : Nat} (hs : sign < 2) :
    IsNanPattern F (BitVec.ofNat 64 (canonicalNan c F sign)) := by
  have hfits := nanFields_fits c F hs
  have hlt : canonicalNan c F sign < 2 ^ formatWidth F := joinFields_lt hfits
  have hfields : patternFields F (canonicalNan c F sign) = nanFields c F sign := patternFields_joinFields hfits
  rw [IsNanPattern, toNat_ofNat_of_lt_format hlt]
  exact ⟨hlt, congrArg FloatFields.E hfields,
    (congrArg FloatFields.M hfields).trans_ne (nanFraction_ne_zero hc F)⟩

/-! ### The decoders (R190 to R192, R200 to R202) -/

theorem returnedClass_writeCls (v : Dword) (c : FloatClass) (s : State) :
    ReturnedClass v c s (writeErr 0 (writeCls c (writeRes v s))) :=
  ⟨rfl, rfl, rfl, fun _ => rfl, sameOutside_refl s, rfl, rfl⟩

section
variable {F : FloatFormat} {ss : SlotNum} {s : State}

/-- A float decode of a slot of the format's width that is not a NaN returns the slot's own pattern (R186). -/
theorem decodeFloat_of_ne_nan (h : bitLength (readSlot s ss) = formatWidth F)
    (hn : classify F (floatFields F (readSlot s ss)).E (floatFields F (readSlot s ss)).M ≠ .nan) :
    decodeFloat F ss s = .next (writeErr 0
      (writeCls (classify F (floatFields F (readSlot s ss)).E (floatFields F (readSlot s ss)).M)
        (writeRes (BitVec.ofNat 64 (pattern (readSlot s ss))) s))) := by
  rw [decodeFloat_of_eq h, outPattern_of_ne_nan (floatFields_fits h).E_le hn, joinFields_floatFields h]

/-- A float decode of a NaN of the format returns the canonical NaN (R188). -/
theorem decodeFloat_of_nan (h : bitLength (readSlot s ss) = formatWidth F)
    (hn : classify F (floatFields F (readSlot s ss)).E (floatFields F (readSlot s ss)).M = .nan) :
    decodeFloat F ss s = .next (writeErr 0 (writeCls .nan
      (writeRes (BitVec.ofNat 64 (canonicalNan s.cfg F (floatFields F (readSlot s ss)).sign)) s))) := by
  rw [decodeFloat_of_eq h, outPattern_of_nan hn, hn]

/-- Both classes of outcome of a float decode, by the slices of the slot's pattern (R188, R192, R202). -/
theorem decodeFloat_result (h : bitLength (readSlot s ss) = formatWidth F) {f : FloatFields}
    (hf : patternFields F (pattern (readSlot s ss)) = f) :
    (¬ (f.E = exponentMax F ∧ f.M ≠ 0) →
      ∃ t, decodeFloat F ss s = .next t ∧
        ReturnedClass (BitVec.ofNat 64 (pattern (readSlot s ss))) (classify F f.E f.M) s t ∧
        t.res.toNat = pattern (readSlot s ss)) ∧
    (f.E = exponentMax F → f.M ≠ 0 →
      ∃ t, decodeFloat F ss s = .next t ∧
        ReturnedClass (BitVec.ofNat 64 (canonicalNan s.cfg F f.sign)) .nan s t) := by
  rw [← floatFields_eq_patternFields h] at hf
  subst hf
  have hnan := classify_eq_nan_iff (M := (floatFields F (readSlot s ss)).M) (floatFields_fits h).E_le
  refine ⟨fun hn => ?_, fun hE hM => ?_⟩
  · exact ⟨_, decodeFloat_of_ne_nan h (mt hnan.mp hn), returnedClass_writeCls _ _ s,
      toNat_ofNat_of_lt_format (h ▸ pattern_lt _)⟩
  · exact ⟨_, decodeFloat_of_nan h (hnan.mpr ⟨hE, hM⟩), returnedClass_writeCls _ _ s⟩

end

/-- Settles O40: the outcomes of the shared decoder at binary32. -/
theorem decf32Result : Obligations.Decf32Result := fun _ _ h => decodeFloat_result (F := .binary32) h rfl

/-- Settles O41: the outcomes of the shared decoder at binary64. -/
theorem decf64Result : Obligations.Decf64Result := fun _ _ h => decodeFloat_result (F := .binary64) h rfl

/-- Settles O42: both decoders check the slot's width against the format's first. -/
theorem floatWrongWidth : Obligations.FloatWrongWidth := fun _ s =>
  ⟨fun h => ⟨_, decodeFloat_of_ne (F := .binary32) h, failedWith_writeErr .wrongWidth s⟩,
    fun h => ⟨_, decodeFloat_of_ne (F := .binary64) h, failedWith_writeErr .wrongWidth s⟩⟩

/-- Settles O43: the canonical NaN depends on the parameters and the sign alone. -/
theorem nanIsCanonical : Obligations.NanIsCanonical := by
  intro F ss s s' hc hcfg h h' hn hn' hsign
  refine ⟨_, _, (exec_decfOf F ss s).trans (decodeFloat_of_nan h hn),
    (exec_decfOf F ss s').trans (decodeFloat_of_nan h' hn'), ?_,
    isNanPattern_canonicalNan hc F (floatFields_fits h).sign_lt, rfl, rfl⟩
  rw [hcfg, ← hsign]
  rfl

/-! ### The value of each class (R184) -/

section
variable {F : FloatFormat} {f : FloatFields}

theorem floatValue_of_zero (h : classify F f.E f.M = .zero) : floatValue F f = .zero (f.sign == 1) := by
  simp only [floatValue, h]

theorem floatValue_of_subnormal (h : classify F f.E f.M = .subnormal) :
    floatValue F f = .finite (applySign f.sign f.M) (1 - exponentBias F - mantissaWidth F) := by
  simp only [floatValue, h]

theorem floatValue_of_normal (h : classify F f.E f.M = .normal) :
    floatValue F f =
      .finite (applySign f.sign (2 ^ mantissaWidth F + f.M)) (f.E - exponentBias F - mantissaWidth F) := by
  simp only [floatValue, h]

theorem floatValue_of_infinity (h : classify F f.E f.M = .infinity) : floatValue F f = .infinity (f.sign == 1) := by
  simp only [floatValue, h]

theorem floatValue_of_nan (h : classify F f.E f.M = .nan) : floatValue F f = .nan := by
  simp only [floatValue, h]

end

/-! ### The value of the returned pattern (R184, R186) -/

theorem widthBits_formatValueWidth (F : FloatFormat) : widthBits (formatValueWidth F) = formatWidth F := by
  cases F <;> rfl

theorem bitLength_valueBytes_format (F : FloatFormat) (v : Dword) :
    bitLength (valueBytes (formatValueWidth F) v) = formatWidth F :=
  (bitLength_valueBytes _ v).trans (widthBits_formatValueWidth F)

/-- The fields of a pattern laid out as a slot of the format's width. -/
theorem floatFields_valueBytes_ofNat {F : FloatFormat} {n : Nat} (h : n < 2 ^ formatWidth F) :
    floatFields F (valueBytes (formatValueWidth F) (BitVec.ofNat 64 n)) = patternFields F n := by
  rw [floatFields_eq_patternFields (bitLength_valueBytes_format F _), pattern_valueBytes, widthBits_formatValueWidth,
    toNat_ofNat_of_lt_format h, Nat.mod_eq_of_lt h]

/-- Settles O46: the returned pattern is the slot's own, so it has the slot's fields, or both are NaNs. -/
theorem decoderReturnsTheValue : Obligations.DecoderReturnsTheValue := by
  intro F ss s hc h
  by_cases hn : classify F (floatFields F (readSlot s ss)).E (floatFields F (readSlot s ss)).M = .nan
  · have hfits := nanFields_fits s.cfg F (floatFields_fits h).sign_lt
    have hfields := (floatFields_valueBytes_ofNat (joinFields_lt hfits)).trans (patternFields_joinFields hfits)
    have hout : classify F (exponentMax F) (nanFraction s.cfg F) = .nan :=
      (classify_eq_nan_iff le_rfl).mpr ⟨rfl, nanFraction_ne_zero hc F⟩
    refine ⟨_, (exec_decfOf F ss s).trans (decodeFloat_of_nan h hn), ?_⟩
    calc floatValue F (floatFields F (valueBytes (formatValueWidth F)
            (BitVec.ofNat 64 (canonicalNan s.cfg F (floatFields F (readSlot s ss)).sign))))
        = floatValue F (nanFields s.cfg F (floatFields F (readSlot s ss)).sign) := congrArg (floatValue F) hfields
      _ = .nan := floatValue_of_nan hout
      _ = floatValue F (floatFields F (readSlot s ss)) := (floatValue_of_nan hn).symm
  · have hfields : floatFields F (valueBytes (formatValueWidth F) (BitVec.ofNat 64 (pattern (readSlot s ss)))) =
        floatFields F (readSlot s ss) :=
      (floatFields_valueBytes_ofNat (h ▸ pattern_lt _)).trans (floatFields_eq_patternFields h).symm
    exact ⟨_, (exec_decfOf F ss s).trans (decodeFloat_of_ne_nan h hn), congrArg (floatValue F) hfields⟩

/-! ### The round trips (R195, R203) -/

theorem wf_decfOf (c : Config) (F : FloatFormat) (k : SlotNum) : (decfOf F k).wf c = decide (k.toNat < c.nseq) := by
  cases F <;> rfl

/-- The step of a float decode, of a slot that holds what CAPV of the format's width captured. -/
theorem step_decfOf_of_valueBytes {s : State} {k : SlotNum} {F : FloatFormat} {v opa : Dword} {during : List Host.Cell}
    {rest : List HostEvent} (hrst : s.rst = false) (hk : k.toNat < s.cfg.nseq)
    (hh : s.host = .command (encode (decfOf F k)) opa during :: rest)
    (hslot : readSlot s k = valueBytes (formatValueWidth F) v) :
    ∃ u, step s = .next u ∧ u.err = 0 ∧ u.host = rest ∧
      u.cls = classCode (classify F (floatFields F (readSlot s k)).E (floatFields F (readSlot s k)).M) ∧
      u.res = BitVec.ofNat 64 (outPattern s.cfg F (floatFields F (readSlot s k))) := by
  have hwf : (decfOf F k).wf s.cfg = true := by rw [wf_decfOf, decide_eq_true hk]
  have hwidth : bitLength (readSlot s k) = formatWidth F := hslot ▸ bitLength_valueBytes_format F v
  have hexec := (exec_decfOf F k _).trans
    (decodeFloat_of_eq (s := acceptCommand (encode (decfOf F k)) opa during rest s) hwidth)
  exact ⟨_, step_of_encode hrst hh hwf hexec, rfl, rfl, rfl, rfl⟩

/-- The fields of what CAPV of the format's width captured are bit ranges of the captured value (R117, R181). -/
theorem floatFields_valueBytes (F : FloatFormat) (v : Dword) :
    floatFields F (valueBytes (formatValueWidth F) v) =
      ⟨((v.setWidth (formatWidth F)).extractLsb' (formatWidth F - 1) 1).toNat,
        ((v.setWidth (formatWidth F)).extractLsb' (mantissaWidth F) (formatWidth F - 1 - mantissaWidth F)).toNat,
        ((v.setWidth (formatWidth F)).extractLsb' 0 (mantissaWidth F)).toNat⟩ := by
  simp only [BitVec.extractLsb'_toNat, Nat.shiftRight_eq_div_pow, BitVec.toNat_setWidth]
  simp only [floatFields, readUnsignedRange_eq, pattern_valueBytes, widthBits_formatValueWidth]
  cases F <;> rfl

/-- CAPV of the format's width and then the float decode, as two steps of the machine: the captured pattern, or the canonical
NaN (R195, R203). -/
theorem floatRoundTrip {F : FloatFormat} {s : State} {k : SlotNum} {v x : Dword} {d d' : List Host.Cell}
    {rest : List HostEvent} {f : FloatFields} (hrst : s.rst = false) (hk : k.toNat < s.cfg.nseq)
    (hh : s.host = .command (encode (capvOf (formatValueWidth F) k)) v d :: .command (encode (decfOf F k)) x d' :: rest)
    (hf : floatFields F (valueBytes (formatValueWidth F) v) = f) :
    ∃ t u, step s = .next t ∧ t.err = 0 ∧ step t = .next u ∧ u.err = 0 ∧ u.host = rest ∧
      (¬ (f.E = exponentMax F ∧ f.M ≠ 0) → u.res = (v.setWidth (formatWidth F)).setWidth 64) ∧
      (f.E = exponentMax F ∧ f.M ≠ 0 → u.cls = 5 ∧ u.res = BitVec.ofNat 64 (canonicalNan s.cfg F f.sign)) := by
  subst hf
  have hwidth := bitLength_valueBytes_format F v
  have hE := (floatFields_fits hwidth).E_le
  obtain ⟨t, hcapv, herr, hslot, htrst, hcfg, hhost⟩ := step_capvOf hrst hk hh
  obtain ⟨u, hdec, herr', hrest, hcls, hres⟩ := step_decfOf_of_valueBytes htrst (hcfg ▸ hk) hhost hslot
  rw [hslot] at hcls hres
  refine ⟨t, u, hcapv, herr, hdec, herr', hrest, fun hn => ?_, fun hn => ?_⟩
  · calc u.res = BitVec.ofNat 64 (pattern (valueBytes (formatValueWidth F) v)) := by
          rw [hres, outPattern_of_ne_nan hE (mt (classify_eq_nan_iff hE).mp hn), joinFields_floatFields hwidth]
      _ = (v.setWidth (widthBits (formatValueWidth F))).setWidth 64 := by
          rw [← accumulate_valueBytes, setWidth_accumulate (bitLength_valueBytes _ v).le]
      _ = (v.setWidth (formatWidth F)).setWidth 64 := by rw [widthBits_formatValueWidth]
  · have hnan := (classify_eq_nan_iff hE).mpr hn
    exact ⟨by rw [hcls, hnan]; rfl, by rw [hres, outPattern_of_nan hnan, hcfg]⟩

/-- Settles O47: the round trip at binary32. -/
theorem float32RoundTrip : Obligations.Float32RoundTrip := by
  intro s k v x d d' rest hrst hk hh f isNan
  have hnan : isNan ↔ (f.extractLsb' 23 8).toNat = exponentMax .binary32 ∧ (f.extractLsb' 0 23).toNat ≠ 0 :=
    and_congr BitVec.toNat_inj.symm (not_congr BitVec.toNat_inj.symm)
  rw [hnan]
  exact floatRoundTrip (F := .binary32) hrst hk hh (floatFields_valueBytes .binary32 v)

/-- Settles O48: the round trip at binary64, where the captured value is the whole operand. -/
theorem float64RoundTrip : Obligations.Float64RoundTrip := by
  intro s k v x d d' rest hrst hk hh hn
  have hfields := floatFields_valueBytes .binary64 v
  rw [show v.setWidth (formatWidth .binary64) = v from BitVec.setWidth_eq v] at hfields
  obtain ⟨t, u, hcapv, herr, hdec, herr', hrest, hres, -⟩ := floatRoundTrip (F := .binary64) hrst hk hh hfields
  have hnan : (v.extractLsb' 52 11 = 2047#11 ∧ v.extractLsb' 0 52 ≠ 0#52) ↔
      (v.extractLsb' 52 11).toNat = exponentMax .binary64 ∧ (v.extractLsb' 0 52).toNat ≠ 0 :=
    and_congr BitVec.toNat_inj.symm (not_congr BitVec.toNat_inj.symm)
  have hwhole : (v.setWidth (formatWidth .binary64)).setWidth 64 = v :=
    (BitVec.setWidth_eq _).trans (BitVec.setWidth_eq v)
  exact ⟨t, u, hcapv, herr, hdec, herr', (hres (mt hnan.mpr hn)).trans hwhole, hrest⟩

end Sys2Proof.Machine
end

section
/-! PROOF. The exact value of a pattern: the source's series is the closed form (O44), and the value tells the patterns of a
format apart (O45). -/

namespace Sys2Proof.Machine

/-! ### The sign of a finite value -/

@[simp] theorem applySign_zero_left (m : Nat) : applySign 0 m = m := rfl

@[simp] theorem applySign_zero_right (sign : Nat) : applySign sign 0 = 0 := by simp [applySign]

theorem natAbs_applySign (sign m : Nat) : (applySign sign m).natAbs = m := by
  unfold applySign
  split <;> simp

theorem applySign_mul (sign m n : Nat) : applySign sign (m * n) = applySign sign m * n := by
  unfold applySign
  split <;> simp

theorem sign_eq_of_applySign_eq {a b m : Nat} (ha : a < 2) (hb : b < 2) (hm : m ≠ 0)
    (h : applySign a m = applySign b m) : a = b := by
  unfold applySign at h
  split_ifs at h <;> omega

/-- Numbers counted in the same power of two are equal only as counts. -/
theorem eq_of_mul_zpow_eq {m n e : Int} (h : (m : Rat) * 2 ^ e = (n : Rat) * 2 ^ e) : m = n :=
  Int.cast_injective (mul_right_cancel₀ (zpow_ne_zero e two_ne_zero) h)

/-! ### The series of the mantissa bits (R183) -/

/-- The first `n` terms of the series sum up the low `n` bits of the mantissa. -/
theorem bitSeries_eq (M : Nat) (e : Int) (n : Nat) : bitSeries M e n = ((M % 2 ^ n : Nat) : Rat) * 2 ^ e := by
  induction n with
  | zero => simp [bitSeries, Nat.mod_one]
  | succ n ih =>
    rw [bitSeries, ih, Nat.mod_pow_succ, ← Nat.toNat_testBit, zpow_add₀ two_ne_zero, zpow_natCast]
    cases M.testBit n <;> simp [add_mul]

theorem bitSeries_of_lt {M n : Nat} (e : Int) (h : M < 2 ^ n) : bitSeries M e n = (M : Rat) * 2 ^ e := by
  rw [bitSeries_eq, Nat.mod_eq_of_lt h]

theorem subnormalExponent_eq (F : FloatFormat) : subnormalExponent F = 1 - exponentBias F := by cases F <;> rfl

/-- The leading term of a normal is its hidden bit, at the scale of the mantissa. -/
theorem zpow_eq_pow_mul_zpow_sub (e : Int) (p : Nat) : (2 : Rat) ^ e = 2 ^ p * 2 ^ (e - p) := by
  rw [← zpow_natCast, ← zpow_add₀ two_ne_zero, add_sub_cancel]

/-- Settles O44, class by class. -/
theorem seriesIsClosedForm : Obligations.SeriesIsClosedForm := by
  intro F f hM
  cases hc : classify F f.E f.M with
  | zero =>
    rw [floatValue_of_zero (f := { f with sign := 0 }) hc]
    simp only [seriesMagnitude, hc, FloatValue.toRat]
  | subnormal =>
    rw [floatValue_of_subnormal (f := { f with sign := 0 }) hc]
    simp only [seriesMagnitude, hc, FloatValue.toRat, bitSeries_of_lt _ hM, subnormalExponent_eq, applySign_zero_left,
      Int.cast_natCast]
  | normal =>
    rw [floatValue_of_normal (f := { f with sign := 0 }) hc]
    simp only [seriesMagnitude, hc, FloatValue.toRat, bitSeries_of_lt _ hM, applySign_zero_left]
    rw [zpow_eq_pow_mul_zpow_sub _ (mantissaWidth F), ← add_mul]
    push_cast
    rfl
  | infinity =>
    rw [floatValue_of_infinity (f := { f with sign := 0 }) hc]
    simp only [seriesMagnitude, hc, FloatValue.toRat]
  | nan =>
    rw [floatValue_of_nan (f := { f with sign := 0 }) hc]
    simp only [seriesMagnitude, hc, FloatValue.toRat]

/-! ### The magnitude of a finite value, counted in units of the smallest subnormal (R183) -/

/-- How many times the smallest subnormal of the format fits the magnitude of finite fields. -/
def magnitudeUnits (F : FloatFormat) (E M : Nat) : Nat :=
  if E = 0 then M else (2 ^ mantissaWidth F + M) * 2 ^ (E - 1)

section
variable {F : FloatFormat} {E E' M M' : Nat}

theorem magnitudeUnits_lt (hM : M < 2 ^ mantissaWidth F) : magnitudeUnits F E M < 2 ^ mantissaWidth F * 2 ^ E := by
  cases E with
  | zero => simpa [magnitudeUnits] using hM
  | succ n =>
    calc magnitudeUnits F (n + 1) M = (2 ^ mantissaWidth F + M) * 2 ^ n := rfl
      _ < (2 ^ mantissaWidth F + 2 ^ mantissaWidth F) * 2 ^ n := by gcongr
      _ = 2 ^ mantissaWidth F * 2 ^ (n + 1) := by ring

theorem le_magnitudeUnits (h : E < E') : 2 ^ mantissaWidth F * 2 ^ E ≤ magnitudeUnits F E' M' := by
  rw [magnitudeUnits, if_neg (Nat.ne_zero_of_lt h)]
  exact Nat.mul_le_mul (Nat.le_add_right _ _) (Nat.pow_le_pow_right Nat.two_pos (Nat.le_sub_one_of_lt h))

/-- The magnitude grows with the exponent, whatever the mantissas. -/
theorem magnitudeUnits_lt_of_exponent_lt (hM : M < 2 ^ mantissaWidth F) (h : E < E') :
    magnitudeUnits F E M < magnitudeUnits F E' M' :=
  (magnitudeUnits_lt hM).trans_le (le_magnitudeUnits h)

/-- At one exponent the magnitude tells the mantissas apart. -/
theorem mantissa_eq_of_magnitudeUnits_eq (h : magnitudeUnits F E M = magnitudeUnits F E M') : M = M' := by
  unfold magnitudeUnits at h
  split_ifs at h
  · exact h
  · exact Nat.add_left_cancel (Nat.eq_of_mul_eq_mul_right (Nat.two_pow_pos _) h)

theorem fields_eq_of_magnitudeUnits_eq (hM : M < 2 ^ mantissaWidth F) (hM' : M' < 2 ^ mantissaWidth F)
    (h : magnitudeUnits F E M = magnitudeUnits F E' M') : E = E' ∧ M = M' := by
  rcases lt_trichotomy E E' with hlt | rfl | hgt
  · exact absurd h (magnitudeUnits_lt_of_exponent_lt hM hlt).ne
  · exact ⟨rfl, mantissa_eq_of_magnitudeUnits_eq h⟩
  · exact absurd h.symm (magnitudeUnits_lt_of_exponent_lt hM' hgt).ne

end

section
variable {F : FloatFormat} {f f' : FloatFields}

/-- Fields below the all-ones exponent have a number as their value: a whole number of units, of either sign. -/
theorem toRat_floatValue_of_lt (h : f.E < exponentMax F) :
    (floatValue F f).toRat = some ((applySign f.sign (magnitudeUnits F f.E f.M) : Rat) *
      2 ^ (1 - exponentBias F - mantissaWidth F : Int)) := by
  by_cases hE : f.E = 0
  · by_cases hM : f.M = 0
    · rw [floatValue_of_zero (classify_eq_zero_iff.mpr ⟨hE, hM⟩)]
      simp [FloatValue.toRat, magnitudeUnits, hE, hM]
    · rw [floatValue_of_subnormal (classify_eq_subnormal_iff.mpr ⟨hE, hM⟩), magnitudeUnits, if_pos hE]
      rfl
  · have hexp : (f.E : Int) - exponentBias F - mantissaWidth F =
        (f.E - 1 : Nat) + (1 - exponentBias F - mantissaWidth F) := by omega
    rw [floatValue_of_normal (classify_eq_normal_iff.mpr ⟨Nat.pos_of_ne_zero hE, h⟩), magnitudeUnits, if_neg hE,
      applySign_mul, FloatValue.toRat, hexp, zpow_add₀ two_ne_zero, zpow_natCast]
    push_cast
    rw [mul_assoc]

theorem toRat_floatValue_of_max (h : f.E = exponentMax F) : (floatValue F f).toRat = none := by
  by_cases hM : f.M = 0
  · rw [floatValue_of_infinity ((classify_eq_infinity_iff h.le).mpr ⟨h, hM⟩)]
    rfl
  · rw [floatValue_of_nan ((classify_eq_nan_iff h.le).mpr ⟨h, hM⟩)]
    rfl

/-! ### Equal values (R184, C5) -/

theorem FloatValue.same.toRat_eq {v w : FloatValue} (h : v.same w) : v.toRat = w.toRat := by
  unfold FloatValue.same at h
  split at h
  · rfl
  · exact congrArg some h
  · rfl
  · rfl
  · exact h.elim

theorem FloatValue.same.ne_nan {v w : FloatValue} (h : v.same w) (hv : v ≠ .nan) : w ≠ .nan := by
  rintro rfl
  cases v with
  | zero _ => exact h
  | finite _ _ => exact h
  | infinity _ => exact h
  | nan => exact hv rfl

theorem mantissa_eq_zero_of_ne_nan (hE : f.E = exponentMax F) (hn : floatValue F f ≠ .nan) : f.M = 0 := by
  by_contra hM
  exact hn (floatValue_of_nan ((classify_eq_nan_iff hE.le).mpr ⟨hE, hM⟩))

/-- Two values that are no NaNs and are equal but for their sign come from equal exponent and mantissa fields. -/
theorem exponent_mantissa_eq_of_toRat_eq (hf : f.Fits F) (hf' : f'.Fits F) (hn : floatValue F f ≠ .nan)
    (hn' : floatValue F f' ≠ .nan) (h : (floatValue F f).toRat = (floatValue F f').toRat) :
    f.E = f'.E ∧ f.M = f'.M := by
  rcases hf.E_le.lt_or_eq with hlt | hmax <;> rcases hf'.E_le.lt_or_eq with hlt' | hmax'
  · rw [toRat_floatValue_of_lt hlt, toRat_floatValue_of_lt hlt', Option.some_inj] at h
    have hunits := congrArg Int.natAbs (eq_of_mul_zpow_eq h)
    rw [natAbs_applySign, natAbs_applySign] at hunits
    exact fields_eq_of_magnitudeUnits_eq hf.M_lt hf'.M_lt hunits
  · rw [toRat_floatValue_of_lt hlt, toRat_floatValue_of_max hmax'] at h
    exact absurd h (Option.some_ne_none _)
  · rw [toRat_floatValue_of_max hmax, toRat_floatValue_of_lt hlt'] at h
    exact absurd h.symm (Option.some_ne_none _)
  · exact ⟨hmax.trans hmax'.symm,
      (mantissa_eq_zero_of_ne_nan hmax hn).trans (mantissa_eq_zero_of_ne_nan hmax' hn').symm⟩

theorem sign_eq_of_beq_eq {a b : Nat} (ha : a < 2) (hb : b < 2) (h : (a == 1) = (b == 1)) : a = b := by
  have hiff : a = 1 ↔ b = 1 := by rw [← beq_iff_eq, h, beq_iff_eq]
  omega

/-- At equal exponent and mantissa fields, the value of R184 tells the signs apart, those of zeros and infinities too. -/
theorem sign_eq_of_same {E M a b : Nat} (ha : a < 2) (hb : b < 2) (hn : floatValue F ⟨a, E, M⟩ ≠ .nan)
    (h : (floatValue F ⟨a, E, M⟩).same (floatValue F ⟨b, E, M⟩)) : a = b := by
  cases hc : classify F E M with
  | zero =>
    rw [floatValue_of_zero hc, floatValue_of_zero hc] at h
    exact sign_eq_of_beq_eq ha hb h
  | subnormal =>
    rw [floatValue_of_subnormal hc, floatValue_of_subnormal hc] at h
    obtain ⟨-, hM⟩ := classify_eq_subnormal_iff.mp hc
    exact sign_eq_of_applySign_eq ha hb hM (eq_of_mul_zpow_eq h)
  | normal =>
    rw [floatValue_of_normal hc, floatValue_of_normal hc] at h
    exact sign_eq_of_applySign_eq ha hb (Nat.add_pos_left (Nat.two_pow_pos _) M).ne' (eq_of_mul_zpow_eq h)
  | infinity =>
    rw [floatValue_of_infinity hc, floatValue_of_infinity hc] at h
    exact sign_eq_of_beq_eq ha hb h
  | nan => exact absurd (floatValue_of_nan hc) hn

/-- The value tells the fields of a format apart, NaNs excepted. -/
theorem fields_eq_of_same (hf : f.Fits F) (hf' : f'.Fits F) (hn : floatValue F f ≠ .nan)
    (h : (floatValue F f).same (floatValue F f')) : f = f' := by
  obtain ⟨hE, hM⟩ := exponent_mantissa_eq_of_toRat_eq hf hf' hn (h.ne_nan hn) h.toRat_eq
  obtain ⟨a, E, M⟩ := f
  obtain ⟨b, E', M'⟩ := f'
  obtain rfl : E = E' := hE
  obtain rfl : M = M' := hM
  have hsign : a = b := sign_eq_of_same hf.sign_lt hf'.sign_lt hn h
  rw [hsign]

end

/-- Settles O45: the value determines the fields, and the fields are the pattern. -/
theorem valueDeterminesPattern : Obligations.ValueDeterminesPattern := by
  intro F q q' hq hq' hn hsame
  rw [← joinFields_floatFields hq, ← joinFields_floatFields hq',
    fields_eq_of_same (floatFields_fits hq) (floatFields_fits hq') hn hsame]

end Sys2Proof.Machine
end

section
/-! PROOF. Errors are precise (O49), every command but CAPM completes (O53), and the idle block keeps its state (O8). -/

namespace Sys2Proof.Machine

/-! ### The two completions (R225) -/

/-- A completion that did not fail leaves `ERR` 0; one that failed changed nothing else (R220, R225). -/
theorem Completion.err_zero_or_failedWith {i : Instr} {s t : State} (hc : Completion s i t) :
    t.err = 0 ∨ ∃ e, FailedWith e s t := by
  cases hc with
  | failed _ e => exact .inr ⟨e, failedWith_writeErr e s⟩
  | capturedMemory | capturedValue | copied | returned | returnedClass => exact .inl rfl

/-- Settles O49, by the two ways a command completes; no error has the code 0. -/
theorem errorsArePrecise : Obligations.ErrorsArePrecise := by
  intro i s t h
  refine (exec_completion h).err_zero_or_failedWith.imp_right ?_
  rintro ⟨e, hfailed⟩
  exact ⟨e, errorCode_ne_zero e, hfailed⟩

/-! ### Commands that always complete (R226, R258) -/

section
variable (ss : SlotNum) (s : State)

theorem execGetbit_completes (pos : Imm) : ∃ t, execGetbit ss pos s = .next t := by
  rcases Nat.lt_or_ge pos.toNat (bitLength (readSlot s ss)) with h | h
  · exact ⟨_, execGetbit_of_lt h⟩
  · exact ⟨_, execGetbit_of_ge h⟩

theorem execRdbyte_completes (index : Imm) : ∃ t, execRdbyte ss index s = .next t := by
  cases h : (readSlot s ss)[index.toNat]? with
  | none => exact ⟨_, execRdbyte_of_none h⟩
  | some b => exact ⟨_, execRdbyte_of_some h⟩

theorem decodeInt_completes (w : Width) (signed : Bool) : ∃ t, decodeInt w signed ss s = .next t := by
  rcases decodeInt_cases w signed ss s with ⟨-, e⟩ | ⟨-, e⟩ <;> exact ⟨_, e⟩

theorem decodeFloat_completes (F : FloatFormat) : ∃ t, decodeFloat F ss s = .next t := by
  rcases decodeFloat_cases F ss s with ⟨-, e⟩ | ⟨-, e⟩ <;> exact ⟨_, e⟩

end

/-- Settles O53: the captures of a value, COPY and BITLEN have no check, and the checks of the other commands end in a next
state whichever way they go. -/
theorem onlyCapmCanFailToComplete : Obligations.OnlyCapmCanFailToComplete := by
  intro i s hm
  cases i with
  | capm sd n => exact absurd rfl (hm sd n)
  | capv8 | capv16 | capv32 | capv64 | copy | bitlen => exact ⟨_, rfl⟩
  | getbit ss pos => exact execGetbit_completes ss s pos
  | rdbyte ss index => exact execRdbyte_completes ss s index
  | decu8 ss | decu16 ss | decu32 ss | decu64 ss | decs8 ss | decs16 ss | decs32 ss | decs64 ss =>
    exact decodeInt_completes ss s _ _
  | decf32 ss | decf64 ss => exact decodeFloat_completes ss s _

/-! ### The idle block (R236, R252) -/

/-- Settles O8, by the equation of the step with no action to come. -/
theorem idleKeepsState : Obligations.IdleKeepsState := fun _ hh => step_of_no_action hh

end Sys2Proof.Machine
end

section
/-! PROOF. The input `RST` (O11), a stuck capture that it abandons (O12), and the commands on an empty slot, as every slot is
after reset (O13). -/

namespace Sys2Proof.Machine

/-! ### Driving `RST` (R44, R250) -/

theorem resetBlock_holdsResetValues (s : State) : HoldsResetValues (resetBlock s) :=
  ⟨readSlot_resetBlock s, rfl, rfl, rfl⟩

theorem driveRst_true (s : State) : driveRst true s = resetBlock { s with rst := true } := rfl

section
variable {s : State}

/-- Whatever level an asserted `RST` is driven to, the block holds the reset values (log 8). -/
theorem driveRst_of_asserted (level : Bool) (hrst : s.rst = true) :
    driveRst level s = resetBlock { s with rst := level } :=
  if_pos (by rw [hrst, Bool.or_true])

theorem driveRst_false_of_released (hrst : s.rst = false) : driveRst false s = s :=
  if_neg (by simp [hrst])

end

/-! ### A command that waits under `RST` (R47, R250, log 9) -/

section
variable {s : State} {c : HostEvent} {rest : List HostEvent}

theorem waitUnderReset_of_store {addr : Nat} {w : Width} {v : Dword} (hh : s.host = c :: .store addr w v :: rest) :
    waitUnderReset s = hostStore addr w v { s with host := c :: rest } := by
  simp only [waitUnderReset, hh]

/-- `RST` is asserted while a command waits, so either level behind it leads to the reset values. -/
theorem waitUnderReset_of_rst {level : Bool} (hrst : s.rst = true) (hh : s.host = c :: .rst level :: rest) :
    waitUnderReset s = resetBlock { s with rst := level, host := c :: rest } := by
  simp only [waitUnderReset, hh]
  exact driveRst_of_asserted level hrst

theorem waitUnderReset_of_command {cmd : Word} {opa : Dword} {during : List Host.Cell}
    (hh : s.host = c :: .command cmd opa during :: rest) : waitUnderReset s = s := by
  simp only [waitUnderReset, hh]

theorem waitUnderReset_of_no_action_behind (hh : s.host = [c]) : waitUnderReset s = s := by
  simp only [waitUnderReset, hh]

/-- What the block shows while `c` waits: `c` still first, nothing taken or read, and the registers kept or reset. -/
structure StillWaits (c : HostEvent) (s t : State) : Prop where
  host : ∃ rest, t.host = c :: rest
  cmd : t.cmd = s.cmd
  opa : t.opa = s.opa
  draws : t.draws = s.draws
  registers : (SameSlots s t ∧ t.res = s.res ∧ t.err = s.err ∧ t.cls = s.cls) ∨ HoldsResetValues t

theorem StillWaits.refl (hh : s.host = c :: rest) : StillWaits c s s :=
  ⟨⟨rest, hh⟩, rfl, rfl, rfl, .inl ⟨fun _ => rfl, rfl, rfl, rfl⟩⟩

/-- By the action behind the waiting one: a store keeps the registers, a level of `RST` resets them, and nothing else is
performed. -/
theorem waitUnderReset_stillWaits (hrst : s.rst = true) (hh : s.host = c :: rest) :
    StillWaits c s (waitUnderReset s) := by
  cases rest with
  | nil => exact (waitUnderReset_of_no_action_behind hh).symm ▸ .refl hh
  | cons e rest =>
    cases e with
    | command => exact (waitUnderReset_of_command hh).symm ▸ .refl hh
    | store =>
      rw [waitUnderReset_of_store hh]
      exact ⟨⟨rest, rfl⟩, rfl, rfl, rfl, .inl ⟨fun _ => rfl, rfl, rfl, rfl⟩⟩
    | rst =>
      rw [waitUnderReset_of_rst hrst hh]
      exact ⟨⟨rest, rfl⟩, rfl, rfl, rfl, .inr (resetBlock_holdsResetValues _)⟩

end

/-- Settles O11, by the step's equations for `RST` and for a command under it, clause by clause: asserted, a command held
back, released, released behind a waiting command, a store behind a waiting command, driven low again. -/
theorem rstHoldsAndResetsTheBlock : Obligations.RstHoldsAndResetsTheBlock := by
  refine ⟨fun s rest hh => ?_, fun s cmd opa during rest hrst hh => ?_, fun s rest hrst hh => ?_,
    fun s cmd opa during rest hrst hh => ?_, fun s cmd opa during addr w v rest hrst hh => ?_, fun s rest hrst hh => ?_⟩
  · rw [step_of_rst hh, driveRst_true]
    exact ⟨_, rfl, rfl, resetBlock_holdsResetValues _, rfl, rfl, rfl⟩
  · obtain ⟨⟨rest', hhost⟩, hcmd, hopa, hdraws, hregs⟩ := waitUnderReset_stillWaits hrst hh
    exact ⟨_, rest', step_of_command_under_reset hrst hh, hhost, hcmd, hopa, hdraws, hregs⟩
  · rw [step_of_rst hh, driveRst_of_asserted (s := { s with host := rest }) false hrst]
    exact ⟨_, rfl, resetBlock_holdsResetValues _, rfl, rfl, rfl, rfl⟩
  · rw [step_of_command_under_reset hrst hh, waitUnderReset_of_rst hrst hh]
    exact ⟨_, rfl, resetBlock_holdsResetValues _, rfl, rfl, rfl, rfl⟩
  · rw [step_of_command_under_reset hrst hh, waitUnderReset_of_store hh]
    rfl
  · rw [step_of_rst hh, driveRst_false_of_released (s := { s with host := rest }) hrst]

/-! ### A stuck capture (R114, R251) -/

/-- `RST` asserted next abandons the stuck command (log 7). -/
theorem settle_stuck_of_rst {s : State} {rest : List HostEvent} (hh : s.host = .rst true :: rest) :
    settle s (.fault .readNotAdmitted) = .next (resetBlock { finishCommand s with rst := true, host := rest }) :=
  settle_stuck_of_some (by rw [hh]; rfl)

/-- Settles O12: the step of the stuck CAPM ends in the state of the block that `RST` resets. -/
theorem resetAbandonsStuckCapture : Obligations.ResetAbandonsStuckCapture := by
  intro s cmd opa during rest sd n hrst hh hd hstuck
  rw [step_of_command hrst hh hd, hstuck, settle_stuck_of_rst rfl]
  exact ⟨_, rfl, resetBlock_holdsResetValues _, rfl, rfl, rfl⟩

/-! ### Commands on an empty slot (R156, R254) -/

/-- Settles O13: an empty slot has bit length 0, which is at or below every position and index, below every integer width and
no float width; the results are those of the commands' own statements. -/
theorem commandsOnEmptySlots : Obligations.CommandsOnEmptySlots := by
  intro s k x hempty
  have hbits : bitLength (readSlot s k) = 0 := by rw [hempty]; rfl
  obtain ⟨hwidth32, hwidth64⟩ := floatWrongWidth k s
  have hdecode (w : Width) : ∃ t, exec (decsOf w k) s = .next t ∧ Returned 0 s t ∧ exec (decuOf w k) s = .next t := by
    obtain ⟨t, hdecs, hret, -, hdecu⟩ := shortSlotIsNotSignExtended w k s (hbits ▸ widthBits_pos w)
    rw [hempty] at hret
    exact ⟨t, hdecs, hret, hdecu⟩
  refine ⟨?_, ?_, ?_, fun w => ?_, fun w => ?_, ?_, ?_⟩
  · obtain ⟨-, t, hexec, hret, -⟩ := bitlenReturnsBitLength k s
    rw [hempty] at hret
    exact ⟨t, hexec, hret⟩
  · obtain ⟨-, -, hpast⟩ := getbitReturnsBit k x s
    exact hpast (hempty ▸ Nat.zero_le _)
  · obtain ⟨-, -, hpast⟩ := rdbyteReturnsByte k x s
    exact hpast (hempty ▸ Nat.zero_le _)
  · obtain ⟨t, -, hret, hdecu⟩ := hdecode w
    exact ⟨t, hdecu, hret⟩
  · obtain ⟨t, hdecs, hret, -⟩ := hdecode w
    exact ⟨t, hdecs, hret⟩
  · exact hwidth32 (by rw [hbits]; decide)
  · exact hwidth64 (by rw [hbits]; decide)

end Sys2Proof.Machine
end
